-- ==== Sys2Proof/Word.lean ====
section
/-!
DEFINITION. The two word types of the block: a buffer byte (00_scope.md R11, BYTE_W = 8) and the
64-bit value and result ports (R11, VALUE_W = 64). Every other quantity of the pseudocode is an
unbounded natural number (R12).
-/

namespace Sys2Proof

/-- A byte of the buffer memory (BYTE_W = 8, R11). -/
abbrev Byte := BitVec 8

/-- A value of the `value` and `result` ports (VALUE_W = 64, R11). -/
abbrev Word := BitVec 64

end Sys2Proof
end

