-- ==== Sys2Proof/Config.lean ====
section
/-!
DEFINITION. The implementation parameters of 00_scope.md R11 and the free values. The two OPEN
parameters ADDR_W and BIT_INDEX_W are data that the state carries (log 2), so that a statement over
every state is a statement over every pair of widths; the fixed parameters are numerals.
-/

namespace Sys2Proof

/-- The OPEN parameters of R11 ("a model takes the OPEN ones as arguments"). -/
structure Config where
  /-- ADDR_W, the width of `base` and `len`: the buffer memory has `2 ^ addrW` bytes (R21). -/
  addrW : Nat
  /-- BIT_INDEX_W, the width of `begin`, `end`, `nbegin` and `nend`. -/
  bitIndexW : Nat
  deriving DecidableEq, Repr

/-- The default widths of R11, those of 95_test_vectors.md. -/
def Config.specDefault : Config := { addrW := 32, bitIndexW := 32 }

/-- REQ_W, the width of a request word (30_encoding.md R60). -/
def Config.reqW (c : Config) : Nat := 68 + 2 * c.addrW + 2 * c.bitIndexW

/-- RESP_W, the width of a response word (30_encoding.md R65). -/
def Config.respW (c : Config) : Nat := 70 + 2 * c.bitIndexW

/-- FREE VALUE (log 5): the byte that a WRITE or MERGE cut by reset leaves at a byte of its span
(70_reset_and_hazards.md R181: "its old value, its new value, or (for a byte being written) any
value"), for the n-th such byte of the run. -/
opaque Config.cutByte : Nat → Byte

/-- FREE VALUE (log 4): the 64-bit result port for a natural that does not fit 64 bits; `zext_64`
is given only for `v < 2^64` (R15), which ADDR_W over 64 or BIT_INDEX_W over 67 can break. -/
opaque Config.wideResult : Nat → Word

end Sys2Proof
end

