-- ==== Sys2Proof/Syntax.lean ====
section
/-!
DEFINITION. The requests and responses as data: the bit range (10_state.md R27), the nine requests
of opcode_table.json as the one inductive `Instr`, the raw request record (R22), and the response
record (R23) with its status (60_exceptions.md R160) and width class (30_encoding.md R64).
-/

namespace Sys2Proof

/-- A bit range descriptor: the half-open interval `[beginBit, endBit)` (R27). Any pair is a term;
whether it is valid is decided by the request (41_range_descriptor.md R90). -/
structure BitRange where
  beginBit : Nat
  endBit : Nat
  deriving DecidableEq, Repr

/-- The requests, one constructor per row of opcode_table.json, with the operands each one uses
(30_encoding.md R62). -/
inductive Instr where
  /-- RANGE `[b, e)` (R92). -/
  | range (r : BitRange)
  /-- WIDTH `[b, e)` (R81). -/
  | width (r : BitRange)
  /-- BYTEOF `i`, the bit carried in `begin` (R93). -/
  | byteof (bit : Nat)
  /-- BITOFF `i`, the bit carried in `begin` (R94). -/
  | bitoff (bit : Nat)
  /-- ONEBYTE `[b, e)` (R95). -/
  | onebyte (r : BitRange)
  /-- NORM `base, [b, e)` (R97). -/
  | norm (base : Nat) (r : BitRange)
  /-- READ `base, len, [b, e)` (R110). -/
  | read (base len : Nat) (r : BitRange)
  /-- WRITE `base, len, [b, e), value` (R131). -/
  | write (base len : Nat) (r : BitRange) (value : Word)
  /-- MERGE `base, len, [b, e), value` (R135). -/
  | merge (base len : Nat) (r : BitRange) (value : Word)
  deriving DecidableEq, Repr

/-- A request record, field by field, as it stands on the request port (R22). -/
structure Request where
  op : Nat
  base : Nat
  len : Nat
  beginBit : Nat
  endBit : Nat
  value : Word
  deriving DecidableEq, Repr

/-- The four error classes (R160). -/
inductive ErrorCode where
  /-- ERR_OPCODE, a reserved `op` value (R161). -/
  | opcode
  /-- ERR_RANGE, a range with `begin >= end` or a span over 64 (R162). -/
  | range
  /-- ERR_OVERFLOW, a value that needs more bits than the span (R163). -/
  | overflow
  /-- ERR_BOUNDS, a range outside the buffer or an address that wraps (R164). -/
  | bounds
  deriving DecidableEq, Repr

/-- The status of a response: OK or one error (R160). The codes 5, 6 and 7 are never produced, so
no term stands for them (log 11). -/
inductive Status where
  | ok
  | err (e : ErrorCode)
  deriving DecidableEq, Repr

/-- The width class of a range (R64). The codes 6 and 7 are never produced (log 11). -/
inductive WidthClass where
  /-- No range, or the request failed. -/
  | none
  | bool
  | u8
  | u16
  | u32
  | u64
  deriving DecidableEq, Repr

/-- A response record (R23). -/
structure Response where
  status : Status
  wclass : WidthClass
  result : Word
  nbegin : Nat
  nend : Nat
  deriving DecidableEq, Repr

end Sys2Proof
end

