-- ==== Sys2Proof/WellFormed.lean ====
section
/-!
DEFINITION. Which terms an encoding can carry: each operand fits its field of the request word
(10_state.md R22, 30_encoding.md R60), each data field of a response its field of the response word
(R23, R65). "Every value of base, len, begin, end and value is a legal encoding" (R63): an empty or
too wide range is well-formed here, and the request that takes it answers ERR_RANGE.
-/

namespace Sys2Proof

/-- Both indices fit their BIT_INDEX_W-bit fields. -/
def BitRange.wf (c : Config) (r : BitRange) : Bool :=
  decide (r.beginBit < 2 ^ c.bitIndexW) && decide (r.endBit < 2 ^ c.bitIndexW)

/-- An address or a length fits its ADDR_W-bit field. -/
def addrFits (c : Config) (a : Nat) : Bool := decide (a < 2 ^ c.addrW)

/-- A bit index fits its BIT_INDEX_W-bit field. -/
def bitIndexFits (c : Config) (i : Nat) : Bool := decide (i < 2 ^ c.bitIndexW)

/-- The operands of a request fit the fields that carry them (R60, R62). -/
def Instr.wf (c : Config) : Instr → Bool
  | .range r => r.wf c
  | .width r => r.wf c
  | .byteof bit => bitIndexFits c bit
  | .bitoff bit => bitIndexFits c bit
  | .onebyte r => r.wf c
  | .norm base r => addrFits c base && r.wf c
  | .read base len r => addrFits c base && addrFits c len && r.wf c
  | .write base len r _ => addrFits c base && addrFits c len && r.wf c
  | .merge base len r _ => addrFits c base && addrFits c len && r.wf c

/-- A response the block can produce: its indices fit their fields, and one with a nonzero status
has zero data fields (R23, R166). -/
def Response.wf (c : Config) (r : Response) : Bool :=
  bitIndexFits c r.nbegin && bitIndexFits c r.nend &&
    match r.status with
    | .ok => true
    | .err _ => decide (r.wclass = .none ∧ r.result = 0 ∧ r.nbegin = 0 ∧ r.nend = 0)

end Sys2Proof
end

