-- ==== Sys2Proof/Decode.lean ====
section
/-!
DEFINITION. The request word: unpacking and packing its fields (30_encoding.md R60), the decoder
(R61 to R63, R67) and the encoder. A word is a natural number whose bit 0 is bit 0 of the request
port. The decoder is total: it reads a request from any word, or rejects it by name because `op` is
reserved; bits at or above REQ_W, which the port does not have, are never looked at (log 12).
-/

namespace Sys2Proof

/-- Why a word selects no operation. -/
inductive DecodeError where
  /-- `op` is 0x0, 0x7 or 0xB to 0xF (R63); the machine answers ERR_OPCODE (R161). -/
  | reservedOpcode (op : Nat)
  deriving DecidableEq, Repr

/-- Bits `[lo + width - 1 : lo]` of a word, LSB-0 (00_scope.md R14). -/
def bitField (w lo width : Nat) : Nat := (w >>> lo) % 2 ^ width

/-- The fields of a request word, packed from bit 0 in the order op, base, len, begin, end, value
(R60). -/
def unpackRequest (c : Config) (w : Nat) : Request where
  op := bitField w 0 4
  base := bitField w 4 c.addrW
  len := bitField w (4 + c.addrW) c.addrW
  beginBit := bitField w (4 + 2 * c.addrW) c.bitIndexW
  endBit := bitField w (4 + 2 * c.addrW + c.bitIndexW) c.bitIndexW
  value := BitVec.ofNat 64 (bitField w (4 + 2 * c.addrW + 2 * c.bitIndexW) 64)

/-- The request word of a record whose fields fit (R60). -/
def packRequest (c : Config) (q : Request) : Nat :=
  q.op + q.base <<< 4 + q.len <<< (4 + c.addrW) + q.beginBit <<< (4 + 2 * c.addrW) +
    q.endBit <<< (4 + 2 * c.addrW + c.bitIndexW) +
    q.value.toNat <<< (4 + 2 * c.addrW + 2 * c.bitIndexW)

/-- The operation `op` selects, with the fields it uses (R61, R62). -/
def selectRequest (q : Request) : Except DecodeError Instr :=
  match q.op with
  | 0x1 => .ok (.range ⟨q.beginBit, q.endBit⟩)
  | 0x2 => .ok (.width ⟨q.beginBit, q.endBit⟩)
  | 0x3 => .ok (.byteof q.beginBit)
  | 0x4 => .ok (.bitoff q.beginBit)
  | 0x5 => .ok (.onebyte ⟨q.beginBit, q.endBit⟩)
  | 0x6 => .ok (.norm q.base ⟨q.beginBit, q.endBit⟩)
  | 0x8 => .ok (.read q.base q.len ⟨q.beginBit, q.endBit⟩)
  | 0x9 => .ok (.write q.base q.len ⟨q.beginBit, q.endBit⟩ q.value)
  | 0xA => .ok (.merge q.base q.len ⟨q.beginBit, q.endBit⟩ q.value)
  | op => .error (.reservedOpcode op)

/-- The request a word stands for, or the name of its rejection. -/
def decode (c : Config) (w : Nat) : Except DecodeError Instr := selectRequest (unpackRequest c w)

/-- The record of a request, unused fields zero (they are ignored, R62). -/
def requestOf : Instr → Request
  | .range r => ⟨0x1, 0, 0, r.beginBit, r.endBit, 0⟩
  | .width r => ⟨0x2, 0, 0, r.beginBit, r.endBit, 0⟩
  | .byteof bit => ⟨0x3, 0, 0, bit, 0, 0⟩
  | .bitoff bit => ⟨0x4, 0, 0, bit, 0, 0⟩
  | .onebyte r => ⟨0x5, 0, 0, r.beginBit, r.endBit, 0⟩
  | .norm base r => ⟨0x6, base, 0, r.beginBit, r.endBit, 0⟩
  | .read base len r => ⟨0x8, base, len, r.beginBit, r.endBit, 0⟩
  | .write base len r v => ⟨0x9, base, len, r.beginBit, r.endBit, v⟩
  | .merge base len r v => ⟨0xA, base, len, r.beginBit, r.endBit, v⟩

/-- The word of a well-formed request. -/
def encode (c : Config) (i : Instr) : Nat := packRequest c (requestOf i)

/-- The host's view of the decoder, at the table's widths ADDR_W = BIT_INDEX_W = 32: the
instruction whose low `nbits` bits are `w`, every higher bit 0. -/
def decodeTableWord (nbits w : Nat) : Option Instr :=
  match decode Config.specDefault (w % 2 ^ nbits) with
  | .ok i => some i
  | .error _ => none

end Sys2Proof
end

