-- ==== Sys2Proof/Machine/Flags.lean ====
section
/-!
DEFINITION. The block has no flags (10_state.md R26): what stands in their place is the response's
status and width class. Their codes (60_exceptions.md R160, 30_encoding.md R64), the response word
(R65) and the response of a failed request (R166).
-/

namespace Sys2Proof.Machine

/-- The code of an error in `resp.status` (R160). -/
def errorCode : ErrorCode → Nat
  | .opcode => 1
  | .range => 2
  | .overflow => 3
  | .bounds => 4

/-- `resp.status` as its 3-bit code (R160). -/
def statusCode : Status → Nat
  | .ok => 0
  | .err e => errorCode e

/-- The status a 3-bit code stands for; 5, 6 and 7 are never produced (R160). -/
def statusOfCode : Nat → Option Status
  | 0 => some .ok
  | 1 => some (.err .opcode)
  | 2 => some (.err .range)
  | 3 => some (.err .overflow)
  | 4 => some (.err .bounds)
  | _ => none

/-- `resp.wclass` as its 3-bit code (R64). -/
def wclassCode : WidthClass → Nat
  | .none => 0
  | .bool => 1
  | .u8 => 2
  | .u16 => 3
  | .u32 => 4
  | .u64 => 5

/-- The width class a 3-bit code stands for; 6 and 7 are never produced (R64). -/
def wclassOfCode : Nat → Option WidthClass
  | 0 => some .none
  | 1 => some .bool
  | 2 => some .u8
  | 3 => some .u16
  | 4 => some .u32
  | 5 => some .u64
  | _ => none

/-- The storage width a class names, in bits; 0 for NONE (R64). -/
def wclassBits : WidthClass → Nat
  | .none => 0
  | .bool => 1
  | .u8 => 8
  | .u16 => 16
  | .u32 => 32
  | .u64 => 64

/-- The response of a failed request: the code, every data field zero (R166). -/
def errorResponse (e : ErrorCode) : Response where
  status := .err e
  wclass := .none
  result := 0
  nbegin := 0
  nend := 0

/-- The response word, packed from bit 0 in the order status, wclass, result, nbegin, nend (R65). -/
def encodeResponse (c : Config) (r : Response) : Nat :=
  statusCode r.status + wclassCode r.wclass <<< 3 + r.result.toNat <<< 6 + r.nbegin <<< 70 +
    r.nend <<< (70 + c.bitIndexW)

/-- The response a word stands for; a status 5 to 7 or a width class 6 or 7 is refused
(93_implementation_defined.md, Part 1). -/
def decodeResponse (c : Config) (w : Nat) : Option Response :=
  match statusOfCode (bitField w 0 3), wclassOfCode (bitField w 3 3) with
  | some status, some wclass =>
    some { status, wclass
           result := BitVec.ofNat 64 (bitField w 6 64)
           nbegin := bitField w 70 c.bitIndexW
           nend := bitField w (70 + c.bitIndexW) c.bitIndexW }
  | _, _ => none

end Sys2Proof.Machine
end

