-- ==== Sys2Proof/Machine/Operands.lean ====
section
/-!
DEFINITION. Operand arithmetic, free of state: the derived quantities of a range (00_scope.md R16),
its validity (41_range_descriptor.md R90), the width resolver (40_width_resolver.md R80),
normalization (R96), bounds (20_memory.md R56), the placement of a value over the bytes of a range
(43_write.md R130) and zero extension to the result port (R15).
-/

namespace Sys2Proof.Machine

/-- The span `n`, "interval width in bits" (R16). -/
def span (r : BitRange) : Nat := r.endBit - r.beginBit

/-- `valid(begin, end)` (R90). -/
def validRange (r : BitRange) : Bool := decide (r.beginBit < r.endBit) && decide (span r ≤ 64)

/-- `byte_of(bit)`, the index of the byte that holds a buffer bit (R93). -/
def byteOf (bit : Nat) : Nat := bit / 8

/-- `offset_in_byte(bit)`, position 0 being the most significant bit (R94, R40). -/
def bitOffset (bit : Nat) : Nat := bit % 8

/-- `fb`, the first byte index (R16). -/
def firstByte (r : BitRange) : Nat := byteOf r.beginBit

/-- `lb`, the last byte index (R16). -/
def lastByte (r : BitRange) : Nat := byteOf (r.endBit - 1)

/-- `h`, the head offset (R16). -/
def headOffset (r : BitRange) : Nat := bitOffset r.beginBit

/-- `t`, the tail bits; 0 when the range ends on a byte boundary (R16). -/
def tailBits (r : BitRange) : Nat := bitOffset r.endBit

/-- `spans_one_byte()` (R95). -/
def spansOneByte (r : BitRange) : Bool := decide (firstByte r = lastByte r)

/-- Two fields are in conflict when their byte spans intersect (70_reset_and_hazards.md R185). -/
def conflicts (r₁ r₂ : BitRange) : Bool :=
  decide (firstByte r₁ ≤ lastByte r₂) && decide (firstByte r₂ ≤ lastByte r₁)

/-- `resolve(n)` for a span `1 ≤ n ≤ 64`: the smallest supported storage width that holds `n` bits,
and its width class (R80). -/
def resolve (n : Nat) : Nat × WidthClass :=
  if n = 1 then (1, .bool)
  else if n ≤ 8 then (8, .u8)
  else if n ≤ 16 then (16, .u16)
  else if n ≤ 32 then (32, .u32)
  else (64, .u64)

/-- `normalize(base, begin, end)` (R96). -/
def normalizeRange (base : Nat) (r : BitRange) : Nat × BitRange :=
  (base + r.beginBit / 8, ⟨r.beginBit % 8, r.endBit - 8 * (r.beginBit / 8)⟩)

/-- The byte address exists: it is at most `2^ADDR_W - 1` (R21, R56). -/
def addressExists (c : Config) (a : Nat) : Bool := decide (a < 2 ^ c.addrW)

/-- The range lies in the buffer: `lb < len` and `base + lb` does not wrap (R56). -/
def inBounds (c : Config) (base len : Nat) (r : BitRange) : Bool :=
  decide (lastByte r < len) && addressExists c (base + lastByte r)

/-- The value fits the span: `value < 2^(end - begin)` (60_exceptions.md R163). -/
def valueFits (r : BitRange) (value : Word) : Bool := decide (value.toNat < 2 ^ span r)

/-- `zext_64(v)` (R15), and a free value for a `v` that 64 bits cannot hold (log 4). -/
def zext64 (v : Nat) : Word := if v < 2 ^ 64 then BitVec.ofNat 64 v else Config.wideResult v

/-- `s`, the number of uncovered low positions of byte `lb` (R130). -/
def lowGap (r : BitRange) : Nat := 8 * (lastByte r + 1) - r.endBit

/-- `mask_k`, the coverage mask of byte `k` of the span (R130). -/
def coverMask (r : BitRange) (k : Nat) : Byte :=
  BitVec.ofNat 8 (((2 ^ span r - 1) <<< lowGap r) >>> (8 * (lastByte r - k)))

/-- `bits_k`, the bits of the value `v` placed in byte `k` of the span (R130). -/
def placedBits (r : BitRange) (v : Nat) (k : Nat) : Byte :=
  BitVec.ofNat 8 ((v <<< lowGap r) >>> (8 * (lastByte r - k)))

/-- What a WRITE makes of byte `k` of its span: `(old & ~mask_k) | bits_k` (R131). -/
def overwriteByte (r : BitRange) (v : Nat) (k : Nat) (old : Byte) : Byte :=
  (old &&& ~~~coverMask r k) ||| placedBits r v k

/-- What a MERGE makes of byte `k` of its span: `old | bits_k` (R135). -/
def mergeByte (r : BitRange) (v : Nat) (k : Nat) (old : Byte) : Byte := old ||| placedBits r v k

/-- The byte indices `fb .. lb`, ascending (R46, R47). -/
def bytesUp (r : BitRange) : List Nat :=
  (List.range (lastByte r + 1 - firstByte r)).map (firstByte r + ·)

/-- The byte indices `lb .. fb`, descending: "tail-to-head" (R48). -/
def bytesDown (r : BitRange) : List Nat :=
  (List.range (lastByte r + 1 - firstByte r)).map (lastByte r - ·)

/-- The byte addresses a request accesses: those of the span of a READ, WRITE or MERGE that passes
its checks, none otherwise (R46). They are also its span for a race (R51), the model's choice for a
request that fails its checks (log 15). -/
def touchedBytes (c : Config) : Instr → List Nat
  | .range _ => []
  | .width _ => []
  | .byteof _ => []
  | .bitoff _ => []
  | .onebyte _ => []
  | .norm _ _ => []
  | .read base len r =>
    if validRange r && inBounds c base len r then (bytesUp r).map (base + ·) else []
  | .write base len r v =>
    if validRange r && valueFits r v && inBounds c base len r then (bytesUp r).map (base + ·) else []
  | .merge base len r v =>
    if validRange r && valueFits r v && inBounds c base len r then (bytesUp r).map (base + ·) else []

/-- The byte addresses a request writes: those of the span of a WRITE or MERGE that passes its
checks (R46). -/
def writtenBytes (c : Config) : Instr → List Nat
  | .range _ => []
  | .width _ => []
  | .byteof _ => []
  | .bitoff _ => []
  | .onebyte _ => []
  | .norm _ _ => []
  | .read _ _ _ => []
  | .write base len r v => touchedBytes c (.write base len r v)
  | .merge base len r v => touchedBytes c (.merge base len r v)

end Sys2Proof.Machine
end

