-- ==== Sys2Proof/Machine/State.lean ====
section
/-!
DEFINITION. The machine's state as plain data (10_state.md), what the host can do to it
(70_reset_and_hazards.md R188), and the reasons a step can stop. The architectural state is the
buffer memory alone (R20, R21); the ports, the host's actions and the model's bookkeeping stand
beside it, one field each (INVENTORY.md, State).
-/

namespace Sys2Proof.Machine

/-- The buffer memory `M` (R21), as the list of the bytes that differ from what an unlisted address
reads as, addresses strictly rising (`Memory.wf`, Machine/Ops.lean). -/
abbrev Memory := List Host.Cell

/-- One byte access of the block on the buffer memory (20_memory.md R44, R47, R48). -/
inductive Access where
  /-- `MemRead(addr, 1)` returned `v`. -/
  | read (addr : Nat) (v : Byte)
  /-- `MemWrite(addr, 1, v)`. -/
  | write (addr : Nat) (v : Byte)
  deriving DecidableEq, Repr

/-- One byte access of the host, or of any agent but the block, while a request is in progress
(R51, R188). -/
inductive HostAccess where
  | read (addr : Nat)
  | write (addr : Nat) (v : Byte)
  deriving DecidableEq, Repr

/-- What the host does next (R188). -/
inductive HostEvent where
  /-- Present the request word `w` on the request port and leave the buffer alone until the
  response (R25, R60). -/
  | request (w : Nat)
  /-- Present `w`, and other agents perform `during` while it is in progress (R51, R185). -/
  | contended (w : Nat) (during : List HostAccess)
  /-- Write one byte of the buffer memory between requests (R50, R188). -/
  | store (addr : Nat) (v : Byte)
  /-- Take the response from the response port (R188: "host gets back one RESP"). -/
  | takeResponse
  /-- Assert reset while the block is idle (R180, R182). -/
  | reset
  /-- Present `w` and assert reset while it is in progress (R181). -/
  | resetDuring (w : Nat)
  deriving DecidableEq, Repr

/-- The machine stops with a fault. No request raises one: every error of a request is a status in
its response (60_exceptions.md R166). -/
inductive Fault where
  /-- Raised by the events `store` and `contended` when the host accesses an address at or above
  2^ADDR_W, which names no byte of the buffer memory (R21, R55). Safe: the model stops where the
  spec gives no behaviour (log 7). -/
  | noSuchAddress (addr : Nat)
  deriving DecidableEq, Repr

/-- The model gives no move. -/
inductive Refusal where
  /-- An instruction that has no meaning yet. No arm raises it. Safe. -/
  | notModelled (mnemonic : String)
  /-- Raised by the event `contended` when another agent touches a span byte of the request in
  progress: "the model gives such a step no move" (R51, D19). Safe for claims about runs that keep
  the host's duty of R188 (log 6). -/
  | spanRace
  /-- Raised by the event `takeResponse` while no response exists: "a model must not read one"
  (R31, 93_implementation_defined.md). Safe. -/
  | noResponse
  deriving DecidableEq, Repr

/-- The machine. -/
structure State where
  /-- The implementation parameters (00_scope.md R11); no step changes them (log 2). -/
  cfg : Config
  /-- The buffer memory (R21). -/
  mem : Memory
  /-- What the host does next, oldest first (R25, R50; log 1). -/
  pending : List HostEvent
  /-- The response port: the response to the last request, none before the first request after
  reset completes (R23, R31). -/
  resp : Option Response
  /-- The RESP words the host has taken, oldest first (R65, R188; log 8). -/
  received : List Nat
  /-- The byte accesses of the last request served, in order (R47, R48; log 9). -/
  trace : List Access
  /-- Every nonzero status so far, oldest first, never cleared (R168; log 10). -/
  faultLog : List ErrorCode
  /-- How many free values have been drawn (log 5). -/
  draws : Nat
  deriving DecidableEq, Repr

/-- The machine right after reset (R31, R180): idle, no response, nothing pending; the widths are
the spec's defaults (log 2), and the buffer memory, which reset leaves the host's (R182), lists
nothing (log 3). -/
def State.reset : State where
  cfg := Config.specDefault
  mem := []
  pending := []
  resp := none
  received := []
  trace := []
  faultLog := []
  draws := 0

end Sys2Proof.Machine
end

