-- ==== Sys2Proof/Machine/Ops.lean ====
section
/-!
DEFINITION. The named operations over memory and state that the requests share: the buffer memory's
read and write and its canonical form, the value of a field (20_memory.md R40, R41), the block's
byte accesses with their trace (R44, R47, R48), the response of a completed request (10_state.md
R23), and the one form of error entry (60_exceptions.md R166). There is no return from an error
(R167), so no operation stands for one.
-/

namespace Sys2Proof.Machine

/-! ### The buffer memory -/

/-- What an address reads as that memory does not list: DESIGN CHOICE 0x00 (log 3); the contents at
reset are the host's (R182), and every memory contents is a list. -/
def Memory.unlisted : Byte := 0

/-- `MemRead(a, 1)` (R15). -/
def Memory.read : Memory → Nat → Byte
  | [], _ => Memory.unlisted
  | (b, v) :: m, a => if a = b then v else Memory.read m a

/-- `MemWrite(a, 1, v)` (R15), keeping the canonical form: addresses strictly rising, no entry equal
to what an unlisted address reads as. -/
def Memory.write : Memory → Nat → Byte → Memory
  | [], a, v => if v = Memory.unlisted then [] else [(a, v)]
  | (b, u) :: m, a, v =>
    if a < b then (if v = Memory.unlisted then (b, u) :: m else (a, v) :: (b, u) :: m)
    else if a = b then (if v = Memory.unlisted then m else (a, v) :: m)
    else (b, u) :: Memory.write m a v

/-- The canonical form of memory. -/
abbrev Memory.wf (m : Memory) : Prop :=
  m.Pairwise (fun x y => x.1 < y.1) ∧ ∀ cell ∈ m, cell.2 ≠ Memory.unlisted

/-- Every listed byte is one of the 2^ADDR_W bytes that exist (R21). -/
abbrev Memory.inSpace (c : Config) (m : Memory) : Prop := ∀ cell ∈ m, cell.1 < 2 ^ c.addrW

/-! ### Bits and fields -/

/-- `bit(base, i)`: buffer bit `i` is position `i % 8` of byte `base + i / 8`, position 0 the most
significant (R40). -/
def bit (m : Memory) (base i : Nat) : Nat := ((m.read (base + i / 8)).toNat >>> (7 - i % 8)) &&& 1

/-- `field(base, begin, end)`: the sum over `i` in `[begin, end)` of `bit(base, i) << (end - 1 - i)`
(R41). -/
def field (m : Memory) (base : Nat) (r : BitRange) : Nat :=
  ((List.range (span r)).map fun j =>
    bit m base (r.beginBit + j) <<< (r.endBit - 1 - (r.beginBit + j))).sum

/-! ### Updates of the state -/

/-- Replace the buffer memory. -/
def State.setMem (m : Memory) (s : State) : State := { s with mem := m }

/-- Append one access to the trace of the request being served. -/
def State.addAccess (x : Access) (s : State) : State := { s with trace := s.trace ++ [x] }

/-- Forget the trace of the last request. -/
def State.clearTrace (s : State) : State := { s with trace := [] }

/-- Put a response on the response port, in place of the one before it (R23). -/
def State.setResp (r : Option Response) (s : State) : State := { s with resp := r }

/-- Record a nonzero status, for good (R168). -/
def State.logError (e : ErrorCode) (s : State) : State := { s with faultLog := s.faultLog ++ [e] }

/-- The host has taken a RESP word (R188). -/
def State.addReceived (w : Nat) (s : State) : State := { s with received := s.received ++ [w] }

/-- Count `n` free values as drawn (log 5). -/
def State.addDraws (n : Nat) (s : State) : State := { s with draws := s.draws + n }

/-- What the host does next. -/
def State.setPending (es : List HostEvent) (s : State) : State := { s with pending := es }

/-! ### The block's byte accesses -/

/-- One `MemRead` of the block, traced. -/
def busRead (a : Nat) (s : State) : State := s.addAccess (.read a (s.mem.read a))

/-- One `MemWrite` of the block, traced. -/
def busWrite (a : Nat) (v : Byte) (s : State) : State :=
  (s.setMem (s.mem.write a v)).addAccess (.write a v)

/-- The access trace of a READ: one `MemRead(base + k, 1)` for each index of the list, in order
(R47). -/
def readBytes (base : Nat) : List Nat → State → State
  | [], s => s
  | k :: ks, s => readBytes base ks (busRead (base + k) s)

/-- The read-modify-write of one byte: one `MemRead`, then one `MemWrite` (R48, R53). -/
def rmwByte (a : Nat) (f : Byte → Byte) (s : State) : State :=
  busWrite a (f (s.mem.read a)) (busRead a s)

/-- The access trace of a WRITE or MERGE: for each index `k` of the list, in order, one read and
then one write of byte `base + k`, which becomes `f k old` (R48). -/
def updateBytes (f : Nat → Byte → Byte) (base : Nat) : List Nat → State → State
  | [], s => s
  | k :: ks, s => updateBytes f base ks (rmwByte (base + k) (f k) s)

/-! ### Ending a request -/

/-- The request succeeds: status OK and the given data fields (R23). -/
def complete (wclass : WidthClass) (result : Word) (nbegin nend : Nat) (s : State) :
    Host.Outcome State Fault Refusal :=
  .next (s.setResp (some { status := .ok, wclass, result, nbegin, nend }))

/-- `raise E`, the block's only form of trap entry (R166): no access, the code in the status, every
data field zero, nothing saved and control nowhere else; the status enters the fault log (R168). -/
def raise (e : ErrorCode) (s : State) : Host.Outcome State Fault Refusal :=
  .next ((s.setResp (some (errorResponse e))).logError e)

/-- The first check of every request that takes a range (R90, R165): ERR_RANGE for an invalid one,
else go on. -/
def withRange (r : BitRange) (s : State) (k : Host.Outcome State Fault Refusal) :
    Host.Outcome State Fault Refusal :=
  if validRange r then k else raise .range s

/-- The shared body of WRITE and MERGE: the checks in the order of R165, then one read and one write
of every byte of the span, tail to head, where byte `k` becomes `f k old` (R48, R131, R135). -/
def updateField (f : Nat → Byte → Byte) (base len : Nat) (r : BitRange) (value : Word) (s : State) :
    Host.Outcome State Fault Refusal :=
  withRange r s <|
    if valueFits r value then
      if inBounds s.cfg base len r then
        complete (resolve (span r)).2 0 0 0 (updateBytes f base (bytesDown r) s)
      else raise .bounds s
    else raise .overflow s

end Sys2Proof.Machine
end

