-- ==== Sys2Proof/Machine/Accessor.lean ====
section
/-!
DEFINITION. The requests of the field accessor: READ (42_read.md), WRITE and MERGE (43_write.md), by
the rules of record R110, R131 and R135. The source's own algorithms are in SourceAlgorithm.lean.
-/

namespace Sys2Proof.Machine

/-- READ: the unsigned value of the field, zero-extended; the span bytes are read ascending and
nothing is written (R110, R47). -/
def execRead (base len : Nat) (r : BitRange) (s : State) : Host.Outcome State Fault Refusal :=
  withRange r s <|
    if inBounds s.cfg base len r then
      complete (resolve (span r)).2 (zext64 (field s.mem base r)) 0 0 (readBytes base (bytesUp r) s)
    else raise .bounds s

/-- WRITE: byte `k` of the span becomes `(old & ~mask_k) | bits_k` (R131). -/
def execWrite (base len : Nat) (r : BitRange) (value : Word) (s : State) :
    Host.Outcome State Fault Refusal :=
  updateField (overwriteByte r value.toNat) base len r value s

/-- MERGE: byte `k` of the span becomes `old | bits_k` (R135). -/
def execMerge (base len : Nat) (r : BitRange) (value : Word) (s : State) :
    Host.Outcome State Fault Refusal :=
  updateField (mergeByte r value.toNat) base len r value s

end Sys2Proof.Machine
end

