-- ==== Sys2Proof/Machine/Descriptor.lean ====
section
/-!
DEFINITION. The requests of the width resolver (40_width_resolver.md) and of the bit range
descriptor (41_range_descriptor.md). They access no byte of the buffer memory (20_memory.md R46).
-/

namespace Sys2Proof.Machine

/-- RANGE: check the range and return its span (R92). -/
def execRange (r : BitRange) (s : State) : Host.Outcome State Fault Refusal :=
  withRange r s <| complete (resolve (span r)).2 (zext64 (span r)) 0 0 s

/-- WIDTH: the storage width of the range (R81). -/
def execWidth (r : BitRange) (s : State) : Host.Outcome State Fault Refusal :=
  withRange r s <| complete (resolve (span r)).2 (zext64 (resolve (span r)).1) 0 0 s

/-- BYTEOF: the index of the byte that holds the bit; every bit index is legal (R93). -/
def execByteof (bit : Nat) (s : State) : Host.Outcome State Fault Refusal :=
  complete .none (zext64 (byteOf bit)) 0 0 s

/-- BITOFF: the position of the bit in its byte; every bit index is legal (R94). -/
def execBitoff (bit : Nat) (s : State) : Host.Outcome State Fault Refusal :=
  complete .none (zext64 (bitOffset bit)) 0 0 s

/-- ONEBYTE: 1 iff the range lies in one byte (R95). -/
def execOnebyte (r : BitRange) (s : State) : Host.Outcome State Fault Refusal :=
  withRange r s <| complete (resolve (span r)).2 (if spansOneByte r then 1 else 0) 0 0 s

/-- NORM: the normalized base and range; ERR_BOUNDS when the advanced base would wrap (R97). -/
def execNorm (base : Nat) (r : BitRange) (s : State) : Host.Outcome State Fault Refusal :=
  withRange r s <|
    if addressExists s.cfg (base + byteOf r.beginBit) then
      complete (resolve (span r)).2 (zext64 (normalizeRange base r).1)
        (normalizeRange base r).2.beginBit (normalizeRange base r).2.endBit s
    else raise .bounds s

end Sys2Proof.Machine
end

