-- ==== Sys2Proof/Machine/Dispatch.lean ====
section
/-! DEFINITION. The meaning of each request, one arm per row of opcode_table.json. -/

namespace Sys2Proof.Machine

def exec (i : Instr) (s : State) : Host.Outcome State Fault Refusal :=
  match i with
  | .range r => Sys2Proof.Machine.execRange r s
  | .width r => Sys2Proof.Machine.execWidth r s
  | .byteof bit => Sys2Proof.Machine.execByteof bit s
  | .bitoff bit => Sys2Proof.Machine.execBitoff bit s
  | .onebyte r => Sys2Proof.Machine.execOnebyte r s
  | .norm base r => Sys2Proof.Machine.execNorm base r s
  | .read base len r => Sys2Proof.Machine.execRead base len r s
  | .write base len r value => Sys2Proof.Machine.execWrite base len r value s
  | .merge base len r value => Sys2Proof.Machine.execMerge base len r value s

end Sys2Proof.Machine
end

