-- ==== Sys2Proof/Machine/Port.lean ====
section
/-!
DEFINITION. What the block and the buffer memory do on each action of the host
(70_reset_and_hazards.md R188): a request word is decoded and run, or answered ERR_OPCODE
(60_exceptions.md R161); the host writes a byte or takes the response; reset.
-/

namespace Sys2Proof.Machine

/-- Run the request a word stands for; a reserved `op` raises ERR_OPCODE, and no other field is
examined (R161). -/
def runRequest (w : Nat) (s : State) : Host.Outcome State Fault Refusal :=
  match decode s.cfg w with
  | .ok i => exec i s
  | .error (.reservedOpcode _) => raise .opcode s

/-- Serve one request as one atomic step (20_memory.md R49): its trace starts empty. -/
def serveRequest (w : Nat) (s : State) : Host.Outcome State Fault Refusal :=
  runRequest w s.clearTrace

/-- The byte addresses the request of a word accesses (R46); none for a reserved `op` (R161). They
are its span for a race (log 15). -/
def touchedByWord (c : Config) (w : Nat) : List Nat :=
  match decode c w with
  | .ok i => touchedBytes c i
  | .error _ => []

/-- The byte addresses the request of a word writes. -/
def writtenByWord (c : Config) (w : Nat) : List Nat :=
  match decode c w with
  | .ok i => writtenBytes c i
  | .error _ => []

/-- The address of a host access. -/
def hostAddr : HostAccess → Nat
  | .read a => a
  | .write a _ => a

/-- Another agent touches a span byte of the request in progress (R51). DESIGN CHOICE (log 15): the
span is the bytes the request accesses (R46), so a request that fails its checks has none, and other
agents may touch the range it names; R51 and R188 do not say. -/
def races (c : Config) (w : Nat) (during : List HostAccess) : Bool :=
  during.any fun x => decide (hostAddr x ∈ touchedByWord c w)

/-- One access of the host; an address outside the buffer memory faults (log 7). -/
def hostAccess (x : HostAccess) (s : State) : Host.Outcome State Fault Refusal :=
  if addressExists s.cfg (hostAddr x) then
    match x with
    | .read _ => .next s
    | .write a v => .next (s.setMem (s.mem.write a v))
  else .fault (.noSuchAddress (hostAddr x))

/-- Accesses of the host, in order. -/
def hostAccesses : List HostAccess → State → Host.Outcome State Fault Refusal
  | [], s => .next s
  | x :: xs, s =>
    match hostAccess x s with
    | .next s' => hostAccesses xs s'
    | .fault r => .fault r
    | .refused r => .refused r

/-- A request with other agents active: no move if they race on its span (R51); else their accesses
fall outside the span, so it does not matter where among the block's they land, and the model lets
them land first (log 6). -/
def serveContended (w : Nat) (during : List HostAccess) (s : State) :
    Host.Outcome State Fault Refusal :=
  if races s.cfg w during then .refused .spanRace
  else
    match hostAccesses during s with
    | .next s' => serveRequest w s'
    | .fault r => .fault r
    | .refused r => .refused r

/-- The host takes the response word; before the first request after reset there is none to take
(10_state.md R31). -/
def takeResponse (s : State) : Host.Outcome State Fault Refusal :=
  match s.resp with
  | none => .refused .noResponse
  | some r => .next (s.addReceived (encodeResponse s.cfg r))

/-- The block after reset: idle, no response, no request whose trace could be shown; the buffer
memory is not touched (R180, R182). -/
def resetBlock (s : State) : State := (s.setResp none).clearTrace

/-- Leave a free byte at each address of the list (R181; log 5). -/
def scramble : List Nat → State → State
  | [], s => s
  | a :: as, s => scramble as ((s.setMem (s.mem.write a (Config.cutByte s.draws))).addDraws 1)

/-- Reset during a request: no response, and every byte the request was to write holds any value
(R181). -/
def cutRequest (w : Nat) (s : State) : State := resetBlock (scramble (writtenByWord s.cfg w) s)

/-- The next action of the host takes place. -/
def serve (e : HostEvent) (s : State) : Host.Outcome State Fault Refusal :=
  match e with
  | .request w => serveRequest w s
  | .contended w during => serveContended w during s
  | .store a v => hostAccess (.write a v) s
  | .takeResponse => takeResponse s
  | .reset => .next (resetBlock s)
  | .resetDuring w => .next (cutRequest w s)

end Sys2Proof.Machine
end

