-- ==== Sys2Proof/Machine/Step.lean ====
section
/-!
DEFINITION. One step of the machine: the oldest pending action of the host takes place; with nothing
pending the block is idle and waits (70_reset_and_hazards.md R180; log 1).
-/

namespace Sys2Proof.Machine

/-- One step. -/
def step (s : State) : Host.Outcome State Fault Refusal :=
  match s.pending with
  | [] => .next s
  | e :: es => serve e (s.setPending es)

/-- `s` with the request word `w` (its bits from `nbits` on zero) on the request port, before
everything the host was to do, so that the very next step serves it (log 1). -/
def State.withFetchWord (s : State) (nbits w : Nat) : State :=
  s.setPending (.request (w % 2 ^ nbits) :: s.pending)

end Sys2Proof.Machine
end

