-- ==== Sys2Proof/Machine/Assembler.lean ====
section
/-!
DEFINITION. The assembler notation of 30_encoding.md R68 and R69: one request per line, `;` starting
a comment, numbers in decimal, `0x` hex or `0b` binary, a range written `[b, e)`, and the two
bindings `.range` and `.buf`, which emit no request. What the notation leaves open (blanks, the
letters of a name) is log 14. The machine does not use this file: a program is the host's sequence
of requests (10_state.md R25).
-/

namespace Sys2Proof.Machine

/-- A range operand: the pair, or a name bound to one (R69). -/
inductive RangeRef where
  | pair (r : BitRange)
  | name (n : List Char)
  deriving DecidableEq, Repr

/-- A buffer operand: base and length, or a name bound to them (R69). -/
inductive BufRef where
  | pair (base len : Nat)
  | name (n : List Char)
  deriving DecidableEq, Repr

/-- A line of a program in the notation of R68 and R69. -/
inductive AsmLine where
  | blank
  | rangeDef (n : List Char) (r : BitRange)
  | bufDef (n : List Char) (base len : Nat)
  | range (r : RangeRef)
  | width (r : RangeRef)
  | byteof (i : Nat)
  | bitoff (i : Nat)
  | onebyte (r : RangeRef)
  | norm (base : Nat) (r : RangeRef)
  | read (b : BufRef) (r : RangeRef)
  | write (b : BufRef) (r : RangeRef) (value : Nat)
  | merge (b : BufRef) (r : RangeRef) (value : Nat)
  deriving DecidableEq, Repr

/-- The bindings made so far, the newest first (R69). -/
structure AsmEnv where
  ranges : List (List Char × BitRange)
  bufs : List (List Char × (Nat × Nat))
  deriving DecidableEq, Repr

/-! ### Expansion -/

/-- The pair a range operand stands for. -/
def expandRange (env : AsmEnv) : RangeRef → Option BitRange
  | .pair r => some r
  | .name n => env.ranges.lookup n

/-- The base and length a buffer operand stands for. -/
def expandBuf (env : AsmEnv) : BufRef → Option (Nat × Nat)
  | .pair base len => some (base, len)
  | .name n => env.bufs.lookup n

/-- A value operand, which must fit the 64-bit value port (R22). -/
def expandValue (v : Nat) : Option Word := if v < 2 ^ 64 then some (BitVec.ofNat 64 v) else none

/-- The request of a line, if it writes one; a name that is not bound expands to nothing. -/
def expandRequest (env : AsmEnv) : AsmLine → Option Instr
  | .blank => none
  | .rangeDef _ _ => none
  | .bufDef _ _ _ => none
  | .range r => (expandRange env r).map .range
  | .width r => (expandRange env r).map .width
  | .byteof i => some (.byteof i)
  | .bitoff i => some (.bitoff i)
  | .onebyte r => (expandRange env r).map .onebyte
  | .norm base r => (expandRange env r).map (.norm base)
  | .read b r =>
    match expandBuf env b, expandRange env r with
    | some p, some r => some (.read p.1 p.2 r)
    | _, _ => none
  | .write b r v =>
    match expandBuf env b, expandRange env r, expandValue v with
    | some p, some r, some v => some (.write p.1 p.2 r v)
    | _, _, _ => none
  | .merge b r v =>
    match expandBuf env b, expandRange env r, expandValue v with
    | some p, some r, some v => some (.merge p.1 p.2 r v)
    | _, _, _ => none

/-- A line's effect: the bindings after it and the requests it emits, none for a binding (R69). A
request whose operands do not fit their fields is rejected. -/
def expandLine (c : Config) (env : AsmEnv) (l : AsmLine) : Option (AsmEnv × List Instr) :=
  match l with
  | .blank => some (env, [])
  | .rangeDef n r => some ({ env with ranges := (n, r) :: env.ranges }, [])
  | .bufDef n base len => some ({ env with bufs := (n, (base, len)) :: env.bufs }, [])
  | l =>
    match expandRequest env l with
    | some i => if i.wf c then some (env, [i]) else none
    | none => none

/-- The requests of a program, in order. -/
def expandLines (c : Config) : AsmEnv → List AsmLine → Option (List Instr)
  | _, [] => some []
  | env, l :: ls =>
    match expandLine c env l with
    | some (env', is) => (expandLines c env' ls).map (is ++ ·)
    | none => none

/-! ### Reading the text -/

/-- A word (a mnemonic, a name or a number) or one of the marks `[`, `)`, `,` and `=`. -/
inductive Token where
  | word (cs : List Char)
  | mark (c : Char)
  deriving DecidableEq, Repr

/-- The word collected in reverse, if any, before the tokens that follow it. -/
def flushWord (acc : List Char) (ts : List Token) : List Token :=
  match acc with
  | [] => ts
  | _ => .word acc.reverse :: ts

/-- The tokens of one line; a `;` ends it (R68). -/
def lexLine (acc : List Char) : List Char → List Token
  | [] => flushWord acc []
  | c :: cs =>
    if c = ';' then flushWord acc []
    else if c = ' ' ∨ c = '\t' ∨ c = '\r' then flushWord acc (lexLine [] cs)
    else if c = '[' ∨ c = ')' ∨ c = ',' ∨ c = '=' then flushWord acc (.mark c :: lexLine [] cs)
    else lexLine (c :: acc) cs

/-- The lines of a text. -/
def splitLines : List Char → List (List Char)
  | [] => [[]]
  | c :: cs =>
    match splitLines cs with
    | [] => [[c]]
    | l :: ls => if c = '\n' then [] :: l :: ls else (c :: l) :: ls

/-- The value of a digit in base `b`. -/
def digitValue (b : Nat) (c : Char) : Option Nat :=
  let d :=
    if '0' ≤ c ∧ c ≤ '9' then c.toNat - '0'.toNat
    else if 'a' ≤ c ∧ c ≤ 'f' then c.toNat - 'a'.toNat + 10
    else if 'A' ≤ c ∧ c ≤ 'F' then c.toNat - 'A'.toNat + 10
    else b
  if d < b then some d else none

/-- The number whose digits follow those of `n` in base `b`. -/
def readDigits (b n : Nat) : List Char → Option Nat
  | [] => some n
  | c :: cs =>
    match digitValue b c with
    | some d => readDigits b (b * n + d) cs
    | none => none

/-- A number: decimal, `0x` hex or `0b` binary (R68). -/
def readNumber : List Char → Option Nat
  | '0' :: 'x' :: c :: cs => readDigits 16 0 (c :: cs)
  | '0' :: 'b' :: c :: cs => readDigits 2 0 (c :: cs)
  | c :: cs => readDigits 10 0 (c :: cs)
  | [] => none

/-- A range operand at the head of the tokens. -/
def readRange : List Token → Option (RangeRef × List Token)
  | .mark '[' :: .word b :: .mark ',' :: .word e :: .mark ')' :: ts =>
    match readNumber b, readNumber e with
    | some b, some e => some (.pair ⟨b, e⟩, ts)
    | _, _ => none
  | .word n :: ts => some (.name n, ts)
  | _ => none

/-- A buffer operand and the comma after it. -/
def readBuf : List Token → Option (BufRef × List Token)
  | .word b :: .mark ',' :: ts =>
    match readNumber b, ts with
    | some base, .word l :: .mark ',' :: ts' => (readNumber l).map fun len => (.pair base len, ts')
    | some _, _ => none
    | none, _ => some (.name b, ts)
  | _ => none

/-- A range operand that ends the line. -/
def readLastRange (ts : List Token) : Option RangeRef :=
  match readRange ts with
  | some (r, []) => some r
  | _ => none

/-- A number that ends the line. -/
def readLastNumber : List Token → Option Nat
  | [.word n] => readNumber n
  | _ => none

/-- The operands `base, len, [b, e), value` of WRITE and MERGE. -/
def readStore (ts : List Token) : Option (BufRef × RangeRef × Nat) :=
  match readBuf ts with
  | some (b, ts₁) =>
    match readRange ts₁ with
    | some (r, .mark ',' :: ts₂) => (readLastNumber ts₂).map fun v => (b, r, v)
    | _ => none
  | none => none

/-- The name and the rest of a binding `NAME = …`. -/
def readBinding : List Token → Option (List Char × List Token)
  | .word n :: .mark '=' :: ts => some (n, ts)
  | _ => none

/-- The line a list of tokens stands for (R68, R69). -/
def readLine : List Token → Option AsmLine
  | [] => some .blank
  | .word m :: ts =>
    if m = ".range".toList then
      match readBinding ts with
      | some (n, ts') =>
        match readRange ts' with
        | some (.pair r, []) => some (.rangeDef n r)
        | _ => none
      | none => none
    else if m = ".buf".toList then
      match readBinding ts with
      | some (n, [.word b, .mark ',', .word l]) =>
        match readNumber b, readNumber l with
        | some base, some len => some (.bufDef n base len)
        | _, _ => none
      | _ => none
    else if m = "RANGE".toList then (readLastRange ts).map .range
    else if m = "WIDTH".toList then (readLastRange ts).map .width
    else if m = "BYTEOF".toList then (readLastNumber ts).map .byteof
    else if m = "BITOFF".toList then (readLastNumber ts).map .bitoff
    else if m = "ONEBYTE".toList then (readLastRange ts).map .onebyte
    else if m = "NORM".toList then
      match ts with
      | .word b :: .mark ',' :: ts' =>
        match readNumber b, readLastRange ts' with
        | some base, some r => some (.norm base r)
        | _, _ => none
      | _ => none
    else if m = "READ".toList then
      match readBuf ts with
      | some (b, ts') => (readLastRange ts').map (.read b)
      | none => none
    else if m = "WRITE".toList then (readStore ts).map fun p => .write p.1 p.2.1 p.2.2
    else if m = "MERGE".toList then (readStore ts).map fun p => .merge p.1 p.2.1 p.2.2
    else none
  | _ => none

/-- The lines of a program text; none if some line is not in the notation. -/
def readLines (ls : List (List Char)) : Option (List AsmLine) :=
  ls.mapM fun l => readLine (lexLine [] l)

/-- The requests of a program text (R68, R69). -/
def assemble (c : Config) (text : String) : Option (List Instr) :=
  match readLines (splitLines text.toList) with
  | some ls => expandLines c { ranges := [], bufs := [] } ls
  | none => none

/-! ### Writing requests and responses -/

/-- A range as `[b, e)`. -/
def showRange (r : BitRange) : String := "[" ++ r.beginBit.repr ++ ", " ++ r.endBit.repr ++ ")"

/-- A request as its mnemonic and its used operands (R68). -/
def showRequest : Instr → String
  | .range r => "RANGE " ++ showRange r
  | .width r => "WIDTH " ++ showRange r
  | .byteof i => "BYTEOF " ++ i.repr
  | .bitoff i => "BITOFF " ++ i.repr
  | .onebyte r => "ONEBYTE " ++ showRange r
  | .norm base r => "NORM " ++ base.repr ++ ", " ++ showRange r
  | .read base len r => "READ " ++ base.repr ++ ", " ++ len.repr ++ ", " ++ showRange r
  | .write base len r v =>
    "WRITE " ++ base.repr ++ ", " ++ len.repr ++ ", " ++ showRange r ++ ", " ++ v.toNat.repr
  | .merge base len r v =>
    "MERGE " ++ base.repr ++ ", " ++ len.repr ++ ", " ++ showRange r ++ ", " ++ v.toNat.repr

/-- The name of a status (R160). -/
def showStatus : Status → String
  | .ok => "OK"
  | .err .opcode => "ERR_OPCODE"
  | .err .range => "ERR_RANGE"
  | .err .overflow => "ERR_OVERFLOW"
  | .err .bounds => "ERR_BOUNDS"

/-- The name of a width class (R64). -/
def showWclass : WidthClass → String
  | .none => "NONE"
  | .bool => "BOOL"
  | .u8 => "U8"
  | .u16 => "U16"
  | .u32 => "U32"
  | .u64 => "U64"

/-- A response as `status, result`, then the width class and the normalized indices where they are
not zero (R68). -/
def showResponse (r : Response) : String :=
  showStatus r.status ++ ", " ++ r.result.toNat.repr ++
    (if r.wclass = .none then "" else ", wclass=" ++ showWclass r.wclass) ++
    (if r.nbegin = 0 ∧ r.nend = 0 then ""
     else ", nbegin=" ++ r.nbegin.repr ++ ", nend=" ++ r.nend.repr)

end Sys2Proof.Machine
end

