-- ==== Sys2Proof/Machine/SourceAlgorithm.lean ====
section
/-!
DEFINITION. The source's own algorithms on the normalized form of a range: the read of 42_read.md
R111 and R112, the overwrite of 43_write.md R132 and R133 and the merge of R136. The requests follow
the rules of record (Accessor.lean); R113 and R134 say the two agree, which is stated as obligations.
The accumulator and the value register of 10_state.md R29 are the local values `acc` and `v` here.
-/

namespace Sys2Proof.Machine

/-- The bulk of R112: shift left 8 and OR in bytes `1 .. last` of the window at `b2`, ascending. -/
def accumulateBytes (m : Memory) (b2 acc last : Nat) : Nat :=
  (List.range last).foldl (fun acc k => (acc <<< 8) ||| (m.read (b2 + (k + 1))).toNat) acc

/-- The single-byte read of R111 and the multi-byte read of R112. -/
def sourceRead (m : Memory) (base : Nat) (r : BitRange) : Nat :=
  let b2 := (normalizeRange base r).1
  let w := (normalizeRange base r).2
  if firstByte r = lastByte r then
    ((m.read b2).toNat >>> (8 - w.endBit)) &&& (2 ^ span r - 1)
  else
    let lb := lastByte w
    let t := tailBits w
    let head := (m.read b2).toNat &&& (0xFF >>> w.beginBit)
    if t = 0 then accumulateBytes m b2 head lb
    else
      (accumulateBytes m b2 head (lb - 1) <<< t) ||| ((m.read (b2 + lb)).toNat >>> (8 - t))

/-- The two write paths: R136 is R132 and R133 "with every clear step removed". -/
inductive WriteMode where
  | overwrite
  | merge
  deriving DecidableEq, Repr

/-- Clear the mask's bits in an overwrite, then OR the new bits in. -/
def combine (mode : WriteMode) (mask new old : Byte) : Byte :=
  match mode with
  | .overwrite => (old &&& ~~~mask) ||| new
  | .merge => old ||| new

/-- The full bytes of R133, indices `k` down to 1 of the window at `b2`: each takes the low byte of
the value register, which then shifts right by 8. The register's last value comes back. -/
def consumeBytes (mode : WriteMode) (b2 : Nat) : Nat → Nat → State → Nat × State
  | 0, v, s => (v, s)
  | k + 1, v, s =>
    consumeBytes mode b2 k (v >>> 8) (rmwByte (b2 + (k + 1)) (combine mode 0xFF (BitVec.ofNat 8 v)) s)

/-- The head byte of R133: positions `begin' .. 7` take what is left of the value register. -/
def writeHead (mode : WriteMode) (b2 h : Nat) (v : Nat) (s : State) : State :=
  let m := BitVec.ofNat 8 (0xFF >>> h)
  rmwByte b2 (combine mode m (BitVec.ofNat 8 v &&& m)) s

/-- The single-byte write of R132 and the multi-byte write of R133, tail to head. -/
def sourceWrite (mode : WriteMode) (base : Nat) (r : BitRange) (v : Nat) (s : State) : State :=
  let b2 := (normalizeRange base r).1
  let w := (normalizeRange base r).2
  if firstByte r = lastByte r then
    let sh := 8 - w.endBit
    rmwByte b2
      (combine mode (BitVec.ofNat 8 ((2 ^ span r - 1) <<< sh)) (BitVec.ofNat 8 (v <<< sh))) s
  else
    let lb := lastByte w
    let t := tailBits w
    if t = 0 then
      let p := consumeBytes mode b2 lb v s
      writeHead mode b2 w.beginBit p.1 p.2
    else
      let m := BitVec.ofNat 8 (0xFF <<< (8 - t))
      let s₁ := rmwByte (b2 + lb)
        (combine mode m (BitVec.ofNat 8 ((v &&& (2 ^ t - 1)) <<< (8 - t)))) s
      let p := consumeBytes mode b2 (lb - 1) (v >>> t) s₁
      writeHead mode b2 w.beginBit p.1 p.2

end Sys2Proof.Machine
end

