-- ==== Sys2Proof/Safety.lean ====
section
/-!
DEFINITION. What counts as a well-formed state and a safe run, in the terms claims use: the
invariant of the machine, the premise "no request failed" over the fault log (60_exceptions.md
R168), and the duties of the host that the block does not check (70_reset_and_hazards.md R185,
R186, R188).
-/

namespace Sys2Proof.Machine

/-- The address of an access of the block. -/
def accessAddr : Access → Nat
  | .read a _ => a
  | .write a _ => a

/-- The invariant of the machine: what holds after reset and every step keeps. -/
structure State.Inv (s : State) : Prop where
  /-- The buffer memory is in canonical form. -/
  memCanonical : s.mem.wf
  /-- It lists only bytes that exist (R21). -/
  memInSpace : s.mem.inSpace s.cfg
  /-- The response on the port fits its fields, and a failed one has zero data fields (R23, R166). -/
  respFits : ∀ r, s.resp = some r → r.wf s.cfg = true
  /-- Every word the host has taken is a RESP word (R65). -/
  receivedFit : ∀ w ∈ s.received, w < 2 ^ s.cfg.respW
  /-- The block accessed only bytes that exist (R56). -/
  traceInSpace : ∀ x ∈ s.trace, accessAddr x < 2 ^ s.cfg.addrW

/-- No request failed so far (R168). -/
def State.noRequestFailed (s : State) : Prop := s.faultLog = []

/-- The host's duty before a MERGE whose field is to read as the value: the target bits are zero
(R137, R186). -/
def State.mergeTargetZero (s : State) (base : Nat) (r : BitRange) : Prop :=
  field s.mem base r = 0

/-- The host keeps its duties of R188 in this event: it names only bytes that exist, and touches no
span byte of a request in progress (a request that fails its checks has none, log 15). -/
def hostDutyKept (c : Config) : HostEvent → Prop
  | .request _ => True
  | .contended w during =>
    ∀ x ∈ during, hostAddr x < 2 ^ c.addrW ∧ hostAddr x ∉ touchedByWord c w
  | .store a _ => a < 2 ^ c.addrW
  | .takeResponse => True
  | .reset => True
  | .resetDuring _ => True

end Sys2Proof.Machine
end

