-- ==== Sys2Proof/Certificates/Slice0/Obligations.lean ====
section
/-!
DEFINITION. The statements for the provers, in the order of the spec's files: encoding, the step,
width resolver and descriptor, read, write, errors, the whole machine. Where a premise `s.mem.wf`
stands it rules out only memories that no run reaches: every step keeps it
(Obligations.StepKeepsTheInvariant).
-/

open Sys2Proof Sys2Proof.Machine

/-- The one request format (30_encoding.md R60): widths, positions, and that the word holds its fields and nothing else. -/
def Obligations.RequestWordLayout : Prop :=
  (∀ (c : Config) (q : Request), q.op < 2 ^ 4 → q.base < 2 ^ c.addrW → q.len < 2 ^ c.addrW →
    q.beginBit < 2 ^ c.bitIndexW → q.endBit < 2 ^ c.bitIndexW →
    packRequest c q = q.op + q.base * 2 ^ 4 + q.len * 2 ^ (4 + c.addrW) +
        q.beginBit * 2 ^ (4 + 2 * c.addrW) + q.endBit * 2 ^ (4 + 2 * c.addrW + c.bitIndexW) +
        q.value.toNat * 2 ^ (4 + 2 * c.addrW + 2 * c.bitIndexW) ∧
      packRequest c q < 2 ^ (68 + 2 * c.addrW + 2 * c.bitIndexW) ∧
      unpackRequest c (packRequest c q) = q) ∧
  (∀ (c : Config) (w : Nat), w < 2 ^ (68 + 2 * c.addrW + 2 * c.bitIndexW) →
    packRequest c (unpackRequest c w) = w)

/-- Decode and encode agree on all nine requests, at every pair of widths. -/
def Obligations.EncodeThenDecodeGivesTheRequestBack : Prop :=
  ∀ (c : Config) (i : Instr), i.wf c = true → decode c (encode c i) = .ok i

/-- The opcode map of 30_encoding.md R61, and what bit `op[3]` says. -/
def Obligations.OpcodeSelectsTheOperation : Prop :=
  ∀ (c : Config) (w : Nat),
    (bitField w 0 4 = 0x1 → decode c w = .ok (.range ⟨(unpackRequest c w).beginBit, (unpackRequest c w).endBit⟩)) ∧
    (bitField w 0 4 = 0x2 → decode c w = .ok (.width ⟨(unpackRequest c w).beginBit, (unpackRequest c w).endBit⟩)) ∧
    (bitField w 0 4 = 0x3 → decode c w = .ok (.byteof (unpackRequest c w).beginBit)) ∧
    (bitField w 0 4 = 0x4 → decode c w = .ok (.bitoff (unpackRequest c w).beginBit)) ∧
    (bitField w 0 4 = 0x5 → decode c w = .ok (.onebyte ⟨(unpackRequest c w).beginBit, (unpackRequest c w).endBit⟩)) ∧
    (bitField w 0 4 = 0x6 → decode c w = .ok (.norm (unpackRequest c w).base ⟨(unpackRequest c w).beginBit, (unpackRequest c w).endBit⟩)) ∧
    (bitField w 0 4 = 0x8 → decode c w =
      .ok (.read (unpackRequest c w).base (unpackRequest c w).len ⟨(unpackRequest c w).beginBit, (unpackRequest c w).endBit⟩)) ∧
    (bitField w 0 4 = 0x9 → decode c w =
      .ok (.write (unpackRequest c w).base (unpackRequest c w).len ⟨(unpackRequest c w).beginBit, (unpackRequest c w).endBit⟩
        (unpackRequest c w).value)) ∧
    (bitField w 0 4 = 0xA → decode c w =
      .ok (.merge (unpackRequest c w).base (unpackRequest c w).len ⟨(unpackRequest c w).beginBit, (unpackRequest c w).endBit⟩
        (unpackRequest c w).value)) ∧
    (∀ i, decode c w = .ok i →
      (w.testBit 3 = true ↔ (∃ base len r, i = .read base len r) ∨
        (∃ base len r v, i = .write base len r v) ∨ (∃ base len r v, i = .merge base len r v)) ∧
      ∀ s t, w.testBit 3 = false → exec i s = .next t → t.mem = s.mem ∧ t.trace = s.trace)

/-- Operand use (30_encoding.md R62), for every op, the reserved ones among them. -/
def Obligations.UnusedFieldsAreIgnored : Prop :=
  ∀ (s : State) (w w' : Nat),
    let q := unpackRequest s.cfg w
    let q' := unpackRequest s.cfg w'
    q.op = q'.op →
    (q.op ∈ [0x6, 0x8, 0x9, 0xA] → q.base = q'.base) →
    (q.op ∈ [0x8, 0x9, 0xA] → q.len = q'.len) →
    (q.op ∈ [0x1, 0x2, 0x3, 0x4, 0x5, 0x6, 0x8, 0x9, 0xA] → q.beginBit = q'.beginBit) →
    (q.op ∈ [0x1, 0x2, 0x5, 0x6, 0x8, 0x9, 0xA] → q.endBit = q'.endBit) →
    (q.op ∈ [0x9, 0xA] → q.value = q'.value) →
    serveRequest w s = serveRequest w' s

/-- Reserved encodings (30_encoding.md R63, 60_exceptions.md R161), both ways: no other op is answered ERR_OPCODE. That the trace left is this request's own, empty, is the model's bookkeeping (log 9). -/
def Obligations.ReservedOpcodesRaiseErrOpcode : Prop :=
  ∀ (s : State) (w : Nat),
    ((∃ x, decode s.cfg w = .error x) ↔
      bitField w 0 4 ∈ [0x0, 0x7, 0xB, 0xC, 0xD, 0xE, 0xF]) ∧
    (bitField w 0 4 ∈ [0x0, 0x7, 0xB, 0xC, 0xD, 0xE, 0xF] →
      serveRequest w s = .next { s with
        trace := []
        resp := some { status := .err .opcode, wclass := .none, result := 0, nbegin := 0, nend := 0 }
        faultLog := s.faultLog ++ [.opcode] }) ∧
    (∀ t r, serveRequest w s = .next t → t.resp = some r → r.status = .err .opcode →
      bitField w 0 4 ∈ [0x0, 0x7, 0xB, 0xC, 0xD, 0xE, 0xF])

/-- Operands are read whole from fields of their width (30_encoding.md R66), so none exceeds it. -/
def Obligations.DecodedRequestsAreWellFormed : Prop :=
  ∀ (c : Config) (w : Nat) (i : Instr), decode c w = .ok i → i.wf c = true

/-- Words of 95_test_vectors.md, at the default widths. -/
def Obligations.SpecWordsDecode : Prop :=
  decode Config.specDefault 0x0000000000000000000000110000000100000004000001008 =
      .ok (.read 0x100 4 ⟨1, 17⟩) ∧
  decode Config.specDefault 0x0000000000000000000000130000000A00000000000000002 =
      .ok (.width ⟨10, 19⟩) ∧
  decode Config.specDefault 0x000000000000035E00000014000000080000000400000200A =
      .ok (.merge 0x200 4 ⟨8, 20⟩ 0x35E) ∧
  decode Config.specDefault 0x000000000000BEEF000000240000001400000009000004009 =
      .ok (.write 0x400 9 ⟨20, 36⟩ 0xBEEF) ∧
  decode Config.specDefault 0x0000000000000000000000240000001400000000000004006 =
      .ok (.norm 0x400 ⟨20, 36⟩) ∧
  decode Config.specDefault 0x0000000000000000000000480000000700000000000000001 =
      .ok (.range ⟨7, 72⟩)

/-- The one response format (30_encoding.md R65), with the codes never produced refused (R160, R64). -/
def Obligations.ResponseWordLayout : Prop :=
  ∀ (c : Config),
    (∀ r : Response, r.wf c = true →
      encodeResponse c r = statusCode r.status + wclassCode r.wclass * 2 ^ 3 +
          r.result.toNat * 2 ^ 6 + r.nbegin * 2 ^ 70 + r.nend * 2 ^ (70 + c.bitIndexW) ∧
        encodeResponse c r < 2 ^ (70 + 2 * c.bitIndexW) ∧
        decodeResponse c (encodeResponse c r) = some r) ∧
    (∀ w : Nat, 4 < bitField w 0 3 ∨ 5 < bitField w 3 3 → decodeResponse c w = none)

/-- The code tables of 60_exceptions.md R160 and 30_encoding.md R64. -/
def Obligations.StatusAndWidthClassCodes : Prop :=
  statusCode .ok = 0 ∧ statusCode (.err .opcode) = 1 ∧ statusCode (.err .range) = 2 ∧
  statusCode (.err .overflow) = 3 ∧ statusCode (.err .bounds) = 4 ∧
  wclassCode .none = 0 ∧ wclassCode .bool = 1 ∧ wclassCode .u8 = 2 ∧ wclassCode .u16 = 3 ∧
  wclassCode .u32 = 4 ∧ wclassCode .u64 = 5 ∧
  wclassBits .bool = 1 ∧ wclassBits .u8 = 8 ∧ wclassBits .u16 = 16 ∧ wclassBits .u32 = 32 ∧
  wclassBits .u64 = 64 ∧
  (∀ x, statusOfCode (statusCode x) = some x) ∧ (∀ x, wclassOfCode (wclassCode x) = some x)

/-- A step takes the oldest request and executes it whole. `trace` is the model's observation (log 9), `pending` the model's request port (log 1). -/
def Obligations.StepRunsTheDecodedRequest : Prop :=
  ∀ (s : State) (w : Nat) (es : List HostEvent) (i : Instr),
    s.pending = .request w :: es → decode s.cfg w = .ok i →
    step s = exec i { s with pending := es, trace := [] }

/-- The response record of 10_state.md R23, for every request word. -/
def Obligations.EachRequestGetsOneResponse : Prop :=
  ∀ (s : State) (w : Nat) (es : List HostEvent), s.pending = .request w :: es →
    let q := unpackRequest s.cfg w
    ∃ t r, step s = .next t ∧ t.resp = some r ∧ t.pending = es ∧ r.wf s.cfg = true ∧
      (r.status = .ok ∧ q.op ∈ [0x1, 0x2, 0x5, 0x6, 0x8, 0x9, 0xA] →
        r.wclass = (resolve (q.endBit - q.beginBit)).2) ∧
      (¬(r.status = .ok ∧ q.op ∈ [0x1, 0x2, 0x5, 0x6, 0x8, 0x9, 0xA]) → r.wclass = .none) ∧
      (q.op ≠ 0x6 → r.nbegin = 0 ∧ r.nend = 0) ∧
      (q.op ∈ [0x9, 0xA] → r.result = 0) ∧
      (r.status ≠ .ok → r.result = 0 ∧ r.nbegin = 0 ∧ r.nend = 0)

/-- The width resolver (40_width_resolver.md R80); a one-bit span is the boolean (90_conflicts.md C1). -/
def Obligations.ResolvePicksTheSmallestStorageWidth : Prop :=
  (∀ n : Nat, 1 ≤ n → n ≤ 64 →
    resolve n ∈ [(1, WidthClass.bool), (8, .u8), (16, .u16), (32, .u32), (64, .u64)] ∧
    n ≤ (resolve n).1 ∧ (∀ w ∈ [1, 8, 16, 32, 64], n ≤ w → (resolve n).1 ≤ w)) ∧
  (∀ (s : State) (r : BitRange), 64 < r.endBit - r.beginBit →
    exec (.width r) s = .next { s with
      resp := some { status := .err .range, wclass := .none, result := 0, nbegin := 0, nend := 0 }
      faultLog := s.faultLog ++ [.range] })

/-- WIDTH (40_width_resolver.md R81), whole next states, so the frame too. -/
def Obligations.WidthReturnsTheStorageWidth : Prop :=
  (∀ (c : Config) (w : Nat), bitField w 0 4 = 0x2 → decode c w = .ok (.width ⟨(unpackRequest c w).beginBit, (unpackRequest c w).endBit⟩)) ∧
  ∀ (s : State) (b e : Nat),
    (b < e ∧ e - b ≤ 64 → exec (.width ⟨b, e⟩) s = .next { s with
        resp := some { status := .ok, wclass := (resolve (e - b)).2, result := BitVec.ofNat 64 (resolve (e - b)).1, nbegin := 0, nend := 0 } }) ∧
    (¬(b < e ∧ e - b ≤ 64) → exec (.width ⟨b, e⟩) s = .next { s with
        resp := some { status := .err .range, wclass := .none, result := 0, nbegin := 0, nend := 0 }
        faultLog := s.faultLog ++ [.range] })

/-- RANGE (41_range_descriptor.md R92), whole next states, so the frame too. -/
def Obligations.RangeReturnsTheSpan : Prop :=
  (∀ (c : Config) (w : Nat), bitField w 0 4 = 0x1 → decode c w = .ok (.range ⟨(unpackRequest c w).beginBit, (unpackRequest c w).endBit⟩)) ∧
  ∀ (s : State) (b e : Nat),
    (b < e ∧ e - b ≤ 64 → exec (.range ⟨b, e⟩) s = .next { s with
        resp := some { status := .ok, wclass := (resolve (e - b)).2, result := BitVec.ofNat 64 (e - b), nbegin := 0, nend := 0 } }) ∧
    (¬(b < e ∧ e - b ≤ 64) → exec (.range ⟨b, e⟩) s = .next { s with
        resp := some { status := .err .range, wclass := .none, result := 0, nbegin := 0, nend := 0 }
        faultLog := s.faultLog ++ [.range] })

/-- BYTEOF (41_range_descriptor.md R93). The bound 2^67 is where bit / 8 stops fitting the 64-bit port; past it the result is a free value (log 4) and the request still completes. -/
def Obligations.ByteofReturnsTheByteIndex : Prop :=
  (∀ (c : Config) (w : Nat), bitField w 0 4 = 0x3 →
    decode c w = .ok (.byteof (unpackRequest c w).beginBit)) ∧
  ∀ (s : State) (i : Nat),
    (i < 2 ^ 67 → exec (.byteof i) s = .next { s with
        resp := some { status := .ok, wclass := .none, result := BitVec.ofNat 64 (i / 8), nbegin := 0, nend := 0 } }) ∧
    (∃ x : Word, exec (.byteof i) s = .next { s with
        resp := some { status := .ok, wclass := .none, result := x, nbegin := 0, nend := 0 } })

/-- BITOFF (41_range_descriptor.md R94). -/
def Obligations.BitoffReturnsTheOffsetInTheByte : Prop :=
  (∀ (c : Config) (w : Nat), bitField w 0 4 = 0x4 →
    decode c w = .ok (.bitoff (unpackRequest c w).beginBit)) ∧
  ∀ (s : State) (i : Nat), exec (.bitoff i) s = .next { s with
      resp := some { status := .ok, wclass := .none, result := BitVec.ofNat 64 (i % 8), nbegin := 0, nend := 0 } }

/-- ONEBYTE (41_range_descriptor.md R95), whole next states, so the frame too. -/
def Obligations.OnebyteTestsForASingleByte : Prop :=
  (∀ (c : Config) (w : Nat), bitField w 0 4 = 0x5 → decode c w = .ok (.onebyte ⟨(unpackRequest c w).beginBit, (unpackRequest c w).endBit⟩)) ∧
  ∀ (s : State) (b e : Nat),
    (b < e ∧ e - b ≤ 64 → exec (.onebyte ⟨b, e⟩) s = .next { s with
        resp := some { status := .ok, wclass := (resolve (e - b)).2, result := if b / 8 = (e - 1) / 8 then 1 else 0, nbegin := 0, nend := 0 } }) ∧
    (¬(b < e ∧ e - b ≤ 64) → exec (.onebyte ⟨b, e⟩) s = .next { s with
        resp := some { status := .err .range, wclass := .none, result := 0, nbegin := 0, nend := 0 }
        faultLog := s.faultLog ++ [.range] })

/-- NORM (41_range_descriptor.md R97). An ADDR_W over 64 can give an address the 64-bit port does not hold; then the result alone is a free value (log 4) and the request still completes. -/
def Obligations.NormReturnsTheNormalizedBaseAndRange : Prop :=
  (∀ (c : Config) (w : Nat), bitField w 0 4 = 0x6 →
    decode c w = .ok (.norm (unpackRequest c w).base ⟨(unpackRequest c w).beginBit, (unpackRequest c w).endBit⟩)) ∧
  ∀ (s : State) (base b e : Nat),
    (b < e ∧ e - b ≤ 64 ∧ base + b / 8 ≤ 2 ^ s.cfg.addrW - 1 →
      (base + b / 8 < 2 ^ 64 → exec (.norm base ⟨b, e⟩) s = .next { s with
          resp := some { status := .ok, wclass := (resolve (e - b)).2, result := BitVec.ofNat 64 (base + b / 8), nbegin := b % 8, nend := e - 8 * (b / 8) } }) ∧
      (∃ x : Word, exec (.norm base ⟨b, e⟩) s = .next { s with
          resp := some { status := .ok, wclass := (resolve (e - b)).2, result := x, nbegin := b % 8, nend := e - 8 * (b / 8) } })) ∧
    (b < e ∧ e - b ≤ 64 ∧ 2 ^ s.cfg.addrW - 1 < base + b / 8 →
      exec (.norm base ⟨b, e⟩) s = .next { s with
        resp := some { status := .err .bounds, wclass := .none, result := 0, nbegin := 0, nend := 0 }
        faultLog := s.faultLog ++ [.bounds] }) ∧
    (¬(b < e ∧ e - b ≤ 64) → exec (.norm base ⟨b, e⟩) s = .next { s with
        resp := some { status := .err .range, wclass := .none, result := 0, nbegin := 0, nend := 0 }
        faultLog := s.faultLog ++ [.range] })

/-- The bounds 41_range_descriptor.md R96 derives for a valid range. -/
def Obligations.NormalizedRangesAreSmall : Prop :=
  ∀ (base b e : Nat), b < e → e - b ≤ 64 →
    normalizeRange base ⟨b, e⟩ = (base + b / 8, ⟨b % 8, e - 8 * (b / 8)⟩) ∧
    b % 8 ≤ 7 ∧ (e - 8 * (b / 8)) - b % 8 = e - b ∧ e - 8 * (b / 8) ≤ 71 ∧
    (e - 8 * (b / 8) - 1) / 8 = (e - 1) / 8 - b / 8 ∧ (e - 1) / 8 - b / 8 ≤ 8

/-- The consequence 41_range_descriptor.md R91 draws from the width of `end`. -/
def Obligations.HighestBitIsInNoRange : Prop :=
  ∀ (c : Config) (w : Nat),
    let q := unpackRequest c w
    q.beginBit < q.endBit → q.endBit - 1 ≤ 2 ^ c.bitIndexW - 2

/-- READ (42_read.md R110) with the value of 20_memory.md R41 and the accesses of R47; `bit` is R40. -/
def Obligations.ReadReturnsTheField : Prop :=
  (∀ (c : Config) (w : Nat), bitField w 0 4 = 0x8 → decode c w =
    .ok (.read (unpackRequest c w).base (unpackRequest c w).len ⟨(unpackRequest c w).beginBit, (unpackRequest c w).endBit⟩)) ∧
  ∀ (s : State) (base len b e : Nat),
    (b < e ∧ e - b ≤ 64 ∧ (e - 1) / 8 < len ∧ base + (e - 1) / 8 ≤ 2 ^ s.cfg.addrW - 1 →
      ∃ v : Nat, v = ∑ i ∈ Finset.Ico b e, bit s.mem base i * 2 ^ (e - 1 - i) ∧ v < 2 ^ (e - b) ∧
        exec (.read base len ⟨b, e⟩) s = .next { s with
          trace := s.trace ++ (List.range ((e - 1) / 8 + 1 - b / 8)).map fun j =>
            Access.read (base + (b / 8 + j)) (s.mem.read (base + (b / 8 + j)))
          resp := some { status := .ok, wclass := (resolve (e - b)).2, result := BitVec.ofNat 64 v, nbegin := 0, nend := 0 } }) ∧
    (b < e ∧ e - b ≤ 64 ∧ ¬((e - 1) / 8 < len ∧ base + (e - 1) / 8 ≤ 2 ^ s.cfg.addrW - 1) →
      exec (.read base len ⟨b, e⟩) s = .next { s with
        resp := some { status := .err .bounds, wclass := .none, result := 0, nbegin := 0, nend := 0 }
        faultLog := s.faultLog ++ [.bounds] }) ∧
    (¬(b < e ∧ e - b ≤ 64) → exec (.read base len ⟨b, e⟩) s = .next { s with
        resp := some { status := .err .range, wclass := .none, result := 0, nbegin := 0, nend := 0 }
        faultLog := s.faultLog ++ [.range] })

/-- Bit numbering (20_memory.md R40). -/
def Obligations.BufferBitsAreNumberedMsbFirst : Prop :=
  ∀ (m : Memory) (base i : Nat),
    bit m base i = ((m.read (base + i / 8)).getLsbD (7 - i % 8)).toNat

/-- The consequence 20_memory.md R42 draws from R40 and R41. -/
def Obligations.WholeBytesReadBigEndian : Prop :=
  ∀ (m : Memory) (base f k : Nat),
    field m base ⟨8 * f, 8 * (f + k)⟩ =
      ∑ j ∈ Finset.range k, (m.read (base + (f + j))).toNat * 256 ^ (k - 1 - j)

/-- The agreement 42_read.md R113 claims. -/
def Obligations.SourceReadAlgorithmComputesTheField : Prop :=
  ∀ (m : Memory) (base b e : Nat), b < e → e - b ≤ 64 →
    sourceRead m base ⟨b, e⟩ = field m base ⟨b, e⟩

/-- Output width (42_read.md R115). -/
def Obligations.ReadResultFitsTheStorageWidth : Prop :=
  ∀ (s t : State) (base len b e : Nat) (r : Response),
    exec (.read base len ⟨b, e⟩) s = .next t → t.resp = some r → r.status = .ok →
    wclassBits r.wclass = (resolve (e - b)).1 ∧ e - b ≤ wclassBits r.wclass ∧
      r.result.toNat < 2 ^ (e - b) ∧ r.result.toNat < 2 ^ wclassBits r.wclass

/-- The boolean read (42_read.md R114). -/
def Obligations.OneBitReadIsABoolean : Prop :=
  ∀ (s : State) (base len i : Nat), i / 8 < len → base + i / 8 ≤ 2 ^ s.cfg.addrW - 1 →
    exec (.read base len ⟨i, i + 1⟩) s = .next { s with
      trace := s.trace ++ [.read (base + i / 8) (s.mem.read (base + i / 8))]
      resp := some { status := .ok, wclass := .bool
                     result := if (s.mem.read (base + i / 8)).getLsbD (7 - i % 8) then 1 else 0
                     nbegin := 0, nend := 0 } }

/-- Same-byte versus cross-byte equivalence (43_write.md R143). -/
def Obligations.EqualBitContentReadsEqual : Prop :=
  ∀ (s s' : State) (base base' len len' b b' n : Nat), 1 ≤ n → n ≤ 64 →
    (b + n - 1) / 8 < len → base + (b + n - 1) / 8 ≤ 2 ^ s.cfg.addrW - 1 →
    (b' + n - 1) / 8 < len' → base' + (b' + n - 1) / 8 ≤ 2 ^ s'.cfg.addrW - 1 →
    (∀ j < n, bit s.mem base (b + j) = bit s'.mem base' (b' + j)) →
    ∃ t t' r, exec (.read base len ⟨b, b + n⟩) s = .next t ∧
      exec (.read base' len' ⟨b', b' + n⟩) s' = .next t' ∧
      t.resp = some r ∧ t'.resp = some r ∧ r.status = .ok

/-- WRITE (43_write.md R131) at the byte level and at the bit level, with its frame and its errors. The premise `s.mem.wf` is kept by every step (Obligations.StepKeepsTheInvariant). -/
def Obligations.WriteReplacesExactlyTheField : Prop :=
  (∀ (c : Config) (w : Nat), bitField w 0 4 = 0x9 → decode c w =
    .ok (.write (unpackRequest c w).base (unpackRequest c w).len ⟨(unpackRequest c w).beginBit, (unpackRequest c w).endBit⟩ (unpackRequest c w).value)) ∧
  ∀ (s : State) (base len b e : Nat) (v : Word), s.mem.wf →
    (b < e ∧ e - b ≤ 64 ∧ v.toNat < 2 ^ (e - b) ∧ (e - 1) / 8 < len ∧
        base + (e - 1) / 8 ≤ 2 ^ s.cfg.addrW - 1 →
      ∃ m : Memory,
        exec (.write base len ⟨b, e⟩ v) s = .next { s with
          mem := m
          trace := s.trace ++ (List.range ((e - 1) / 8 + 1 - b / 8)).flatMap fun j =>
            [Access.read (base + ((e - 1) / 8 - j)) (s.mem.read (base + ((e - 1) / 8 - j))),
              Access.write (base + ((e - 1) / 8 - j)) (m.read (base + ((e - 1) / 8 - j)))]
          resp := some { status := .ok, wclass := (resolve (e - b)).2, result := 0, nbegin := 0, nend := 0 } } ∧
        (∀ k, b / 8 ≤ k → k ≤ (e - 1) / 8 → m.read (base + k) =
          (s.mem.read (base + k) &&& ~~~coverMask ⟨b, e⟩ k) ||| placedBits ⟨b, e⟩ v.toNat k) ∧
        (∀ i, bit m base i =
          if b ≤ i ∧ i < e then (v.toNat >>> (e - 1 - i)) % 2 else bit s.mem base i) ∧
        (∀ a, a < base + b / 8 ∨ base + (e - 1) / 8 < a → m.read a = s.mem.read a)) ∧
    (b < e ∧ e - b ≤ 64 ∧ v.toNat < 2 ^ (e - b) ∧
        ¬((e - 1) / 8 < len ∧ base + (e - 1) / 8 ≤ 2 ^ s.cfg.addrW - 1) →
      exec (.write base len ⟨b, e⟩ v) s = .next { s with
        resp := some { status := .err .bounds, wclass := .none, result := 0, nbegin := 0, nend := 0 }
        faultLog := s.faultLog ++ [.bounds] }) ∧
    (b < e ∧ e - b ≤ 64 ∧ 2 ^ (e - b) ≤ v.toNat →
      exec (.write base len ⟨b, e⟩ v) s = .next { s with
        resp := some { status := .err .overflow, wclass := .none, result := 0, nbegin := 0, nend := 0 }
        faultLog := s.faultLog ++ [.overflow] }) ∧
    (¬(b < e ∧ e - b ≤ 64) → exec (.write base len ⟨b, e⟩ v) s = .next { s with
        resp := some { status := .err .range, wclass := .none, result := 0, nbegin := 0, nend := 0 }
        faultLog := s.faultLog ++ [.range] })

/-- MERGE (43_write.md R135) at the byte level and at the bit level, with its frame and its errors; defined also over bits that are not zero (R137). -/
def Obligations.MergeOrsTheValueIntoTheField : Prop :=
  (∀ (c : Config) (w : Nat), bitField w 0 4 = 0xA → decode c w =
    .ok (.merge (unpackRequest c w).base (unpackRequest c w).len ⟨(unpackRequest c w).beginBit, (unpackRequest c w).endBit⟩ (unpackRequest c w).value)) ∧
  ∀ (s : State) (base len b e : Nat) (v : Word), s.mem.wf →
    (b < e ∧ e - b ≤ 64 ∧ v.toNat < 2 ^ (e - b) ∧ (e - 1) / 8 < len ∧
        base + (e - 1) / 8 ≤ 2 ^ s.cfg.addrW - 1 →
      ∃ m : Memory,
        exec (.merge base len ⟨b, e⟩ v) s = .next { s with
          mem := m
          trace := s.trace ++ (List.range ((e - 1) / 8 + 1 - b / 8)).flatMap fun j =>
            [Access.read (base + ((e - 1) / 8 - j)) (s.mem.read (base + ((e - 1) / 8 - j))),
              Access.write (base + ((e - 1) / 8 - j)) (m.read (base + ((e - 1) / 8 - j)))]
          resp := some { status := .ok, wclass := (resolve (e - b)).2, result := 0, nbegin := 0, nend := 0 } } ∧
        (∀ k, b / 8 ≤ k → k ≤ (e - 1) / 8 → m.read (base + k) =
          s.mem.read (base + k) ||| placedBits ⟨b, e⟩ v.toNat k) ∧
        (∀ i, bit m base i =
          if b ≤ i ∧ i < e then (bit s.mem base i ||| (v.toNat >>> (e - 1 - i)) % 2) else bit s.mem base i) ∧
        (∀ a, a < base + b / 8 ∨ base + (e - 1) / 8 < a → m.read a = s.mem.read a)) ∧
    (b < e ∧ e - b ≤ 64 ∧ v.toNat < 2 ^ (e - b) ∧
        ¬((e - 1) / 8 < len ∧ base + (e - 1) / 8 ≤ 2 ^ s.cfg.addrW - 1) →
      exec (.merge base len ⟨b, e⟩ v) s = .next { s with
        resp := some { status := .err .bounds, wclass := .none, result := 0, nbegin := 0, nend := 0 }
        faultLog := s.faultLog ++ [.bounds] }) ∧
    (b < e ∧ e - b ≤ 64 ∧ 2 ^ (e - b) ≤ v.toNat →
      exec (.merge base len ⟨b, e⟩ v) s = .next { s with
        resp := some { status := .err .overflow, wclass := .none, result := 0, nbegin := 0, nend := 0 }
        faultLog := s.faultLog ++ [.overflow] }) ∧
    (¬(b < e ∧ e - b ≤ 64) → exec (.merge base len ⟨b, e⟩ v) s = .next { s with
        resp := some { status := .err .range, wclass := .none, result := 0, nbegin := 0, nend := 0 }
        faultLog := s.faultLog ++ [.range] })

/-- Placement (43_write.md R130) in the words of the glossary's "coverage mask" (00_scope.md R18). -/
def Obligations.PlacementCoversTheRange : Prop :=
  ∀ (b e v k p : Nat), b < e → e - b ≤ 64 → v < 2 ^ (e - b) → b / 8 ≤ k → k ≤ (e - 1) / 8 → p < 8 →
    (coverMask ⟨b, e⟩ k).getLsbD (7 - p) = decide (b ≤ 8 * k + p ∧ 8 * k + p < e) ∧
    (placedBits ⟨b, e⟩ v k).getLsbD (7 - p) =
      (decide (b ≤ 8 * k + p ∧ 8 * k + p < e) && v.testBit (e - 1 - (8 * k + p)))

/-- The access trace of 20_memory.md R48, for every byte, a byte whose value does not change among them. -/
def Obligations.StoreTraceIsTailToHead : Prop :=
  ∀ (s t : State) (base len b e : Nat) (v : Word) (r : Response), s.mem.wf →
    (exec (.write base len ⟨b, e⟩ v) s = .next t ∨ exec (.merge base len ⟨b, e⟩ v) s = .next t) →
    t.resp = some r → r.status = .ok →
    t.trace = s.trace ++ (List.range ((e - 1) / 8 + 1 - b / 8)).flatMap (fun j =>
      [Access.read (base + ((e - 1) / 8 - j)) (s.mem.read (base + ((e - 1) / 8 - j))),
        Access.write (base + ((e - 1) / 8 - j)) (t.mem.read (base + ((e - 1) / 8 - j)))]) ∧
    (∀ k, b / 8 ≤ k → k ≤ (e - 1) / 8 → coverMask ⟨b, e⟩ k = 0xFF →
      exec (.write base len ⟨b, e⟩ v) s = .next t →
      t.mem.read (base + k) = placedBits ⟨b, e⟩ v.toNat k)

/-- Which bytes a request touches (20_memory.md R46). -/
def Obligations.RequestsTouchExactlyTheirSpan : Prop :=
  ∀ (i : Instr) (s t : State) (r : Response), s.mem.wf → exec i s = .next t → t.resp = some r →
    ∃ tr : List Access, t.trace = s.trace ++ tr ∧
      (∀ a, (∀ x ∈ tr, accessAddr x ≠ a) → t.mem.read a = s.mem.read a) ∧
      (r.status ≠ .ok → tr = []) ∧
      (∀ base len b e v, r.status = .ok → i = .read base len ⟨b, e⟩ ∨
          i = .write base len ⟨b, e⟩ v ∨ i = .merge base len ⟨b, e⟩ v →
        (∀ a, (∃ x ∈ tr, accessAddr x = a) ↔ base + b / 8 ≤ a ∧ a ≤ base + (e - 1) / 8) ∧
        (∀ j, ¬(b ≤ j ∧ j < e) → bit t.mem base j = bit s.mem base j)) ∧
      ((∀ base len q, i ≠ .read base len q) → (∀ base len q v, i ≠ .write base len q v) →
        (∀ base len q v, i ≠ .merge base len q v) → tr = [])

/-- The agreement 43_write.md R134 claims, for both write modes, single-byte and multi-byte. -/
def Obligations.SourceWriteAlgorithmAgrees : Prop :=
  ∀ (s : State) (base len b e : Nat) (v : Word), b < e → e - b ≤ 64 → v.toNat < 2 ^ (e - b) →
    (e - 1) / 8 < len → base + (e - 1) / 8 ≤ 2 ^ s.cfg.addrW - 1 →
    (∃ t, exec (.write base len ⟨b, e⟩ v) s = .next t ∧
      t.mem = (sourceWrite .overwrite base ⟨b, e⟩ v.toNat s).mem ∧
      t.trace = (sourceWrite .overwrite base ⟨b, e⟩ v.toNat s).trace) ∧
    (∃ t, exec (.merge base len ⟨b, e⟩ v) s = .next t ∧
      t.mem = (sourceWrite .merge base ⟨b, e⟩ v.toNat s).mem ∧
      t.trace = (sourceWrite .merge base ⟨b, e⟩ v.toNat s).trace)

/-- The equivalence of 41_range_descriptor.md R98, as equality of whole outcomes. Where no normalized request is formed, a value that does not fit comes before the bounds (60_exceptions.md R165), so WRITE and MERGE are stated for values that fit. -/
def Obligations.NormalizationChangesNoResult : Prop :=
  ∀ (s : State) (base len b e : Nat) (v : Word), b < e → e - b ≤ 64 →
    (b / 8 ≤ len →
      exec (.read base len ⟨b, e⟩) s =
        exec (.read (base + b / 8) (len - b / 8) ⟨b % 8, e - 8 * (b / 8)⟩) s ∧
      exec (.write base len ⟨b, e⟩ v) s =
        exec (.write (base + b / 8) (len - b / 8) ⟨b % 8, e - 8 * (b / 8)⟩ v) s ∧
      exec (.merge base len ⟨b, e⟩ v) s =
        exec (.merge (base + b / 8) (len - b / 8) ⟨b % 8, e - 8 * (b / 8)⟩ v) s) ∧
    (len < b / 8 →
      exec (.read base len ⟨b, e⟩) s = .next { s with
        resp := some { status := .err .bounds, wclass := .none, result := 0, nbegin := 0, nend := 0 }
        faultLog := s.faultLog ++ [.bounds] } ∧
      (v.toNat < 2 ^ (e - b) →
        ∀ i ∈ [Instr.write base len ⟨b, e⟩ v, .merge base len ⟨b, e⟩ v], exec i s = .next { s with
          resp := some { status := .err .bounds, wclass := .none, result := 0, nbegin := 0, nend := 0 }
          faultLog := s.faultLog ++ [.bounds] }))

/-- Round-trip (43_write.md R140). -/
def Obligations.WriteThenReadRoundTrip : Prop :=
  ∀ (s : State) (base len b e : Nat) (v : Word), s.mem.wf →
    b < e → e - b ≤ 64 → (e - 1) / 8 < len → base + (e - 1) / 8 ≤ 2 ^ s.cfg.addrW - 1 →
    v.toNat < 2 ^ (e - b) → (∀ i, b ≤ i → i < e → bit s.mem base i = 0) →
    ∀ i ∈ [Instr.write base len ⟨b, e⟩ v, .merge base len ⟨b, e⟩ v],
      ∃ t u, exec i s = .next t ∧ exec (.read base len ⟨b, e⟩) t = .next u ∧
        u.resp = some { status := .ok, wclass := (resolve (e - b)).2, result := v, nbegin := 0, nend := 0 }

/-- Non-interference (43_write.md R141); bits of addresses at or above base are `bit base i`, the rest lie below base. -/
def Obligations.WritesLeaveOtherBitsAlone : Prop :=
  ∀ (s t : State) (base len b e : Nat) (v : Word), s.mem.wf →
    (exec (.write base len ⟨b, e⟩ v) s = .next t ∨ exec (.merge base len ⟨b, e⟩ v) s = .next t) →
    (∀ i, ¬(b ≤ i ∧ i < e) → bit t.mem base i = bit s.mem base i) ∧
    (∀ a, a < base → t.mem.read a = s.mem.read a)

/-- Merge additivity (43_write.md R142) with its extension to any content, which the spec derives. -/
def Obligations.MergesAdd : Prop :=
  ∀ (s : State) (base len b e : Nat) (v₁ v₂ : Word), s.mem.wf →
    b < e → e - b ≤ 64 → (e - 1) / 8 < len → base + (e - 1) / 8 ≤ 2 ^ s.cfg.addrW - 1 →
    v₁.toNat < 2 ^ (e - b) → v₂.toNat < 2 ^ (e - b) →
    ∃ t u w, exec (.merge base len ⟨b, e⟩ v₁) s = .next t ∧
      exec (.merge base len ⟨b, e⟩ v₂) t = .next u ∧
      exec (.merge base len ⟨b, e⟩ (v₁ ||| v₂)) s = .next w ∧ u.mem = w.mem

/-- Idempotent clear-write (43_write.md R145). -/
def Obligations.WritingTwiceIsWritingOnce : Prop :=
  ∀ (s t : State) (base len b e : Nat) (v : Word), s.mem.wf →
    exec (.write base len ⟨b, e⟩ v) s = .next t →
    ∃ u, exec (.write base len ⟨b, e⟩ v) t = .next u ∧ u.mem = t.mem

/-- Read after overwrite (43_write.md R146). -/
def Obligations.ReadAfterWriteOnAnyContent : Prop :=
  ∀ (s : State) (base len b e : Nat) (v : Word), s.mem.wf →
    b < e → e - b ≤ 64 → (e - 1) / 8 < len → base + (e - 1) / 8 ≤ 2 ^ s.cfg.addrW - 1 →
    v.toNat < 2 ^ (e - b) →
    ∃ t, exec (.write base len ⟨b, e⟩ v) s = .next t ∧
      (∃ u, exec (.read base len ⟨b, e⟩) t = .next u ∧
        u.resp = some { status := .ok, wclass := (resolve (e - b)).2, result := v, nbegin := 0, nend := 0 }) ∧
      (∀ len' b' e', e' ≤ b ∨ e ≤ b' →
        ∃ x y, exec (.read base len' ⟨b', e'⟩) t = .next x ∧
          exec (.read base len' ⟨b', e'⟩) s = .next y ∧ x.resp = y.resp)

/-- Merge and overwrite compared (43_write.md R147). -/
def Obligations.MergeReadsBackOldOrValue : Prop :=
  ∀ (s : State) (base len b e : Nat) (v : Word), s.mem.wf →
    b < e → e - b ≤ 64 → (e - 1) / 8 < len → base + (e - 1) / 8 ≤ 2 ^ s.cfg.addrW - 1 →
    v.toNat < 2 ^ (e - b) →
    ∃ t u x, exec (.merge base len ⟨b, e⟩ v) s = .next t ∧
      exec (.read base len ⟨b, e⟩) t = .next u ∧
      u.resp = some { status := .ok, wclass := (resolve (e - b)).2, result := BitVec.ofNat 64 (field s.mem base ⟨b, e⟩ ||| v.toNat), nbegin := 0, nend := 0 } ∧
      exec (.write base len ⟨b, e⟩ v) s = .next x ∧
      (s.mergeTargetZero base ⟨b, e⟩ → x.mem = t.mem)

/-- What serialising buys (70_reset_and_hazards.md R185): each request is atomic (20_memory.md R49), so fields that share a byte do not disturb each other. -/
def Obligations.WritesOfDisjointFieldsCommute : Prop :=
  ∀ (s t₁ t₂ u₁ u₂ : State) (base len₁ len₂ b₁ e₁ b₂ e₂ : Nat) (v₁ v₂ : Word) (i₁ i₂ : Instr),
    s.mem.wf → e₁ ≤ b₂ ∨ e₂ ≤ b₁ →
    i₁ ∈ [Instr.write base len₁ ⟨b₁, e₁⟩ v₁, .merge base len₁ ⟨b₁, e₁⟩ v₁] →
    i₂ ∈ [Instr.write base len₂ ⟨b₂, e₂⟩ v₂, .merge base len₂ ⟨b₂, e₂⟩ v₂] →
    exec i₁ s = .next t₁ → exec i₂ t₁ = .next u₁ →
    exec i₂ s = .next t₂ → exec i₁ t₂ = .next u₂ → u₁.mem = u₂.mem

/-- The shared-byte hazard's condition (70_reset_and_hazards.md R185). -/
def Obligations.ConflictIsSharingAByte : Prop :=
  ∀ (r₁ r₂ : BitRange), validRange r₁ = true → validRange r₂ = true →
    (conflicts r₁ r₂ = true ↔ ∃ k, r₁.beginBit / 8 ≤ k ∧ k ≤ (r₁.endBit - 1) / 8 ∧
      r₂.beginBit / 8 ≤ k ∧ k ≤ (r₂.endBit - 1) / 8)

/-- The effect of an error (60_exceptions.md R166), for every request word and every error. The log is the model's bookkeeping (R168), and so is the trace of the request, empty here (log 9). -/
def Obligations.ErrorsTouchNothing : Prop :=
  ∀ (s t : State) (w : Nat) (r : Response) (e : ErrorCode),
    serveRequest w s = .next t → t.resp = some r → r.status = .err e →
    t = { s with
      trace := []
      resp := some { status := .err e, wclass := .none, result := 0, nbegin := 0, nend := 0 }
      faultLog := s.faultLog ++ [e] }

/-- Causes and priority of the errors (60_exceptions.md R162 to R165). -/
def Obligations.StatusIsTheFirstErrorInPriorityOrder : Prop :=
  ∀ (s : State) (w : Nat),
    let q := unpackRequest s.cfg w
    let lb := (q.endBit - 1) / 8
    ∃ t r, serveRequest w s = .next t ∧ t.resp = some r ∧
      (r.status ≠ .ok → r.result = 0 ∧ r.wclass = .none ∧ r.nbegin = 0 ∧ r.nend = 0) ∧
      r.status =
        if q.op ∈ [0x0, 0x7, 0xB, 0xC, 0xD, 0xE, 0xF] then .err .opcode
        else if q.op ∈ [0x1, 0x2, 0x5, 0x6, 0x8, 0x9, 0xA] ∧
            (q.beginBit ≥ q.endBit ∨ q.endBit - q.beginBit > 64) then .err .range
        else if q.op ∈ [0x9, 0xA] ∧ q.value.toNat ≥ 2 ^ (q.endBit - q.beginBit) then .err .overflow
        else if (q.op ∈ [0x8, 0x9, 0xA] ∧ (lb ≥ q.len ∨ q.base + lb > 2 ^ s.cfg.addrW - 1)) ∨
            (q.op = 0x6 ∧ q.base + q.beginBit / 8 > 2 ^ s.cfg.addrW - 1) then .err .bounds
        else .ok

/-- Errors are statuses, never traps (60_exceptions.md R166), so every request ends in a next state. The kept fields beside memory, response and log are the model's own (log 1, 8, 10). -/
def Obligations.EveryInstructionCompletes : Prop :=
  ∀ (i : Instr) (s : State), ∃ t r, exec i s = .next t ∧ t.resp = some r ∧ t.cfg = s.cfg ∧
    t.pending = s.pending ∧ t.received = s.received ∧ t.draws = s.draws

/-- The fault log of 60_exceptions.md R168. That a reset does not clear it is log 10. -/
def Obligations.FaultLogRecordsEachNonzeroStatus : Prop :=
  (∀ (s : State) (w : Nat), ∃ t r, serveRequest w s = .next t ∧ t.resp = some r ∧
    t.faultLog = s.faultLog ++ (match r.status with | .ok => [] | .err e => [e])) ∧
  (∀ (s t : State), step s = .next t → ∃ l, t.faultLog = s.faultLog ++ l ∧ l.length ≤ 1)

/-- From every state that meets the invariant (Safety.lean, State.Inv), not only from reset; that the state carries the widths is log 2. -/
def Obligations.StepKeepsTheInvariant : Prop :=
  ∀ (s t : State), s.Inv → step s = .next t → t.Inv ∧ t.cfg = s.cfg

/-- State.reset; that memory lists nothing is log 3. -/
def Obligations.ResetStateMeetsTheInvariant : Prop :=
  State.reset.Inv

/-- Reset (10_state.md R31, 70_reset_and_hazards.md R180). That an idle block steps to itself is log 1. -/
def Obligations.ResetStateIsIdleWithoutResponse : Prop :=
  State.reset.resp = none ∧ State.reset.pending = [] ∧ State.reset.cfg = ⟨32, 32⟩ ∧
  step State.reset = .next State.reset ∧
  step { State.reset with pending := [.takeResponse] } = .refused .noResponse

/-- Reset of the idle block (70_reset_and_hazards.md R182, R180, 10_state.md R31). The model's own choices in it: the words the host has taken stay (log 8), the trace is emptied (log 9), the fault log stays (log 10). -/
def Obligations.ResetLeavesTheBufferAlone : Prop :=
  ∀ (s : State) (es : List HostEvent), s.pending = .reset :: es →
    step s = .next { s with pending := es, resp := none, trace := [] }

/-- Reset during a request (70_reset_and_hazards.md R181). Nothing is said of the span bytes of a WRITE or MERGE, which may hold any value. The last clause is for requests that write none: that a cut READ leaves its span bytes as they are is log 5's DEDUCED reading. The model's choices: the fault log stays (log 10), the trace is emptied (log 9), and a request that fails its checks has no span (log 15). -/
def Obligations.ResetCutsARequest : Prop :=
  ∀ (s : State) (w : Nat) (es : List HostEvent), s.mem.wf → s.pending = .resetDuring w :: es →
    ∃ t, step s = .next t ∧ t.resp = none ∧ t.trace = [] ∧ t.pending = es ∧
      t.faultLog = s.faultLog ∧ t.mem.wf ∧
      (∀ a, a ∉ touchedByWord s.cfg w → t.mem.read a = s.mem.read a) ∧
      (writtenByWord s.cfg w = [] → t.mem = s.mem)

/-- The architectural state and what changes it (10_state.md R21). -/
def Obligations.OnlyWriteAndMergeChangeMemory : Prop :=
  ∀ (s t : State) (w a : Nat), serveRequest w s = .next t → t.mem.read a ≠ s.mem.read a →
    ∃ base len b e v, (decode s.cfg w = .ok (.write base len ⟨b, e⟩ v) ∨
        decode s.cfg w = .ok (.merge base len ⟨b, e⟩ v)) ∧
      base + b / 8 ≤ a ∧ a ≤ base + (e - 1) / 8

/-- No architectural state between requests (10_state.md R20). -/
def Obligations.RequestsSeeOnlyTheBuffer : Prop :=
  ∀ (s s' : State) (w : Nat), s.cfg = s'.cfg → s.mem = s'.mem →
    ∃ t t' r, serveRequest w s = .next t ∧ serveRequest w s' = .next t' ∧
      t.resp = some r ∧ t'.resp = some r ∧ t.mem = t'.mem ∧ t.trace = t'.trace

/-- Host writes are steps of the host (70_reset_and_hazards.md R188). The fault outside the address space is log 7. -/
def Obligations.HostWritesAreSeen : Prop :=
  ∀ (s : State) (a : Nat) (v : Byte) (es : List HostEvent), s.mem.wf →
    s.pending = .store a v :: es →
    (a < 2 ^ s.cfg.addrW → ∃ m : Memory, step s = .next { s with pending := es, mem := m } ∧
      ∀ x, m.read x = if x = a then v else s.mem.read x) ∧
    (2 ^ s.cfg.addrW ≤ a → step s = .fault (.noSuchAddress a))

/-- Races (20_memory.md R51, decision D19), on the bytes the request accesses; that a request which fails its checks has none is log 15. -/
def Obligations.RaceOnTheSpanHasNoMove : Prop :=
  ∀ (s : State) (w : Nat) (during : List HostAccess) (es : List HostEvent),
    s.pending = .contended w during :: es →
    (∃ x ∈ during, hostAddr x ∈ touchedByWord s.cfg w) → step s = .refused .spanRace

/-- What the host may touch during a request (70_reset_and_hazards.md R188). That their accesses land before the block's is log 6 and shows nowhere; that a request which fails its checks has no span they must keep off is log 15. -/
def Obligations.AccessesOutsideTheSpanDoNotDisturb : Prop :=
  ∀ (s : State) (w : Nat) (during : List HostAccess) (es : List HostEvent), s.mem.wf →
    s.pending = .contended w during :: es →
    (∀ x ∈ during, hostAddr x < 2 ^ s.cfg.addrW ∧ hostAddr x ∉ touchedByWord s.cfg w) →
    ∃ t u, step s = .next t ∧ serveRequest w { s with pending := es } = .next u ∧
      t.resp = u.resp ∧ t.trace = u.trace ∧ t.faultLog = u.faultLog ∧ t.pending = es ∧
      (∀ a ∈ touchedByWord s.cfg w, t.mem.read a = u.mem.read a) ∧
      (∀ a, a ∉ touchedByWord s.cfg w → (∀ x ∈ during, hostAddr x ≠ a) →
        t.mem.read a = s.mem.read a)

/-- Taking the response (70_reset_and_hazards.md R188, 10_state.md R31). That it stays on the port is log 8. -/
def Obligations.HostTakesTheResponseWord : Prop :=
  ∀ (s : State) (es : List HostEvent), s.pending = .takeResponse :: es →
    (∀ r, s.resp = some r →
      step s = .next { s with pending := es, received := s.received ++ [encodeResponse s.cfg r] }) ∧
    (s.resp = none → step s = .refused .noResponse)

/-- The only stops are broken duties of the host (70_reset_and_hazards.md R188); a request that fails its checks leaves no span to keep off (log 15). -/
def Obligations.MachineRunsWhileTheHostKeepsItsDuties : Prop :=
  ∀ (s : State), (∀ e es, s.pending = e :: es →
      hostDutyKept s.cfg e ∧ (e = .takeResponse → s.resp ≠ none)) →
    ∃ t, step s = .next t

/-- The notation and its two pseudo-operations (30_encoding.md R68, R69). The model's choices (log 14): a later binding of a name replaces the earlier one, and a line whose name is not bound or whose operand does not fit its field is not accepted. -/
def Obligations.BindingsExpandAndEmitNothing : Prop :=
  ∀ (c : Config) (env : AsmEnv),
    (∀ n r, ∃ env', expandLine c env (.rangeDef n r) = some (env', []) ∧
      expandRange env' (.name n) = some r ∧ env'.bufs = env.bufs) ∧
    (∀ n base len, ∃ env', expandLine c env (.bufDef n base len) = some (env', []) ∧
      expandBuf env' (.name n) = some (base, len) ∧ env'.ranges = env.ranges) ∧
    (∀ r, expandRange env (.pair r) = some r) ∧
    (∀ base len, expandBuf env (.pair base len) = some (base, len)) ∧
    expandLine c env .blank = some (env, []) ∧
    (∀ i, bitIndexFits c i = true →
      expandLine c env (.byteof i) = some (env, [.byteof i]) ∧
      expandLine c env (.bitoff i) = some (env, [.bitoff i])) ∧
    (∀ x r, expandRange env x = some r → r.wf c = true →
      expandLine c env (.range x) = some (env, [.range r]) ∧
      expandLine c env (.width x) = some (env, [.width r]) ∧
      expandLine c env (.onebyte x) = some (env, [.onebyte r]) ∧
      (∀ base, addrFits c base = true →
        expandLine c env (.norm base x) = some (env, [.norm base r])) ∧
      (∀ y base len, expandBuf env y = some (base, len) →
        addrFits c base = true → addrFits c len = true →
        expandLine c env (.read y x) = some (env, [.read base len r]) ∧
        (∀ v : Word, expandLine c env (.write y x v.toNat) = some (env, [.write base len r v]) ∧
          expandLine c env (.merge y x v.toNat) = some (env, [.merge base len r v])))) ∧
    (∀ l env' is, l ≠ .blank → (∀ n r, l ≠ .rangeDef n r) → (∀ n base len, l ≠ .bufDef n base len) →
      expandLine c env l = some (env', is) → env' = env ∧ ∃ i, is = [i] ∧ i.wf c = true)
end

