-- ==== Sys2Proof/Laws/Memory.lean ====
section
/-!
SUPPORT. The laws of the buffer memory: a read after a write, that writes keep the canonical form and
the address space, and that canonical memories which read alike are equal.
-/

namespace Sys2Proof.Machine

@[simp] theorem Memory.read_nil (a : Nat) : Memory.read [] a = Memory.unlisted := rfl

theorem Memory.read_cons (b a : Nat) (v : Byte) (m : Memory) :
    Memory.read ((b, v) :: m) a = if a = b then v else Memory.read m a := rfl

/-- An address below every listed one is unlisted. -/
theorem Memory.read_eq_unlisted_of_lt {m : Memory} {a : Nat} (h : ∀ x ∈ m, a < x.1) :
    m.read a = Memory.unlisted := by
  induction m with
  | nil => rfl
  | cons x m ih =>
    obtain ⟨b, v⟩ := x
    have hb := h (b, v) (by simp)
    simp only [Memory.read_cons]
    rw [if_neg (by simp at hb; omega)]
    exact ih fun y hy => h y (by simp [hy])

/-- A write leaves every other address alone, in any memory. -/
@[simp] theorem Memory.read_write_of_ne {m : Memory} {a b : Nat} (v : Byte) (h : b ≠ a) :
    (m.write a v).read b = m.read b := by
  induction m with
  | nil => simp only [Memory.write]; split <;> simp [Memory.read_cons, h]
  | cons x m ih =>
    obtain ⟨c, u⟩ := x
    simp only [Memory.write]
    split
    · split <;> simp [Memory.read_cons, h]
    · split
      · rename_i hca
        subst hca
        split <;> simp [Memory.read_cons, h]
      · simp [Memory.read_cons, ih]

/-- A read after a write to the same address gives the value written. -/
theorem Memory.read_write_self {m : Memory} (hm : m.wf) (a : Nat) (v : Byte) :
    (m.write a v).read a = v := by
  induction m with
  | nil => simp only [Memory.write]; split <;> simp_all [Memory.read_cons]
  | cons x m ih =>
    obtain ⟨c, u⟩ := x
    obtain ⟨hs, hv⟩ := hm
    rw [List.pairwise_cons] at hs
    have hm' : Memory.wf m := ⟨hs.2, fun cell hc => hv cell (by simp [hc])⟩
    simp only [Memory.write]
    split
    · rename_i hac
      split
      · rename_i hv0
        subst hv0
        rw [Memory.read_cons, if_neg (by omega)]
        exact Memory.read_eq_unlisted_of_lt fun y hy => Nat.lt_trans hac (hs.1 y hy)
      · simp [Memory.read_cons]
    · split
      · rename_i hac
        subst hac
        split
        · rename_i hv0
          subst hv0
          exact Memory.read_eq_unlisted_of_lt fun y hy => hs.1 y hy
        · simp [Memory.read_cons]
      · rename_i hne
        rw [Memory.read_cons, if_neg hne]
        exact ih hm'

/-- Both cases of a read after a write. -/
theorem Memory.read_write {m : Memory} (hm : m.wf) (a b : Nat) (v : Byte) :
    (m.write a v).read b = if b = a then v else m.read b := by
  by_cases h : b = a
  · simp [h, Memory.read_write_self hm]
  · simp [h]

/-- The cells of a memory after a write are the written cell and old cells. -/
theorem Memory.mem_write {m : Memory} {a : Nat} {v : Byte} {x : Host.Cell} (h : x ∈ m.write a v) :
    (x = (a, v) ∧ v ≠ Memory.unlisted) ∨ x ∈ m := by
  induction m with
  | nil =>
    simp only [Memory.write] at h
    split at h <;> simp_all
  | cons y m ih =>
    obtain ⟨c, u⟩ := y
    simp only [Memory.write] at h
    split at h
    · split at h
      · exact .inr h
      · rcases List.mem_cons.1 h with h | h
        · exact .inl ⟨h, ‹_›⟩
        · exact .inr h
    · split at h
      · split at h
        · exact .inr (by simp [h])
        · rcases List.mem_cons.1 h with h | h
          · exact .inl ⟨h, ‹_›⟩
          · exact .inr (by simp [h])
      · rcases List.mem_cons.1 h with h | h
        · exact .inr (by simp [h])
        · rcases ih h with h | h
          · exact .inl h
          · exact .inr (by simp [h])

/-- A write keeps the canonical form. -/
theorem Memory.write_wf {m : Memory} (hm : m.wf) (a : Nat) (v : Byte) : (m.write a v).wf := by
  refine ⟨?_, fun cell hc => ?_⟩
  · induction m with
    | nil => simp only [Memory.write]; split <;> simp
    | cons x m ih =>
      obtain ⟨c, u⟩ := x
      obtain ⟨hs, hv⟩ := hm
      have hs' := List.pairwise_cons.1 hs
      have hm' : Memory.wf m := ⟨hs'.2, fun cell hc => hv cell (by simp [hc])⟩
      simp only [Memory.write]
      split
      · rename_i hac
        split
        · exact hs
        · refine List.pairwise_cons.2 ⟨fun y hy => ?_, hs⟩
          rcases List.mem_cons.1 hy with rfl | hy
          · exact hac
          · exact Nat.lt_trans hac (hs'.1 y hy)
      · split
        · rename_i hac
          subst hac
          split
          · exact hs'.2
          · exact List.pairwise_cons.2 ⟨fun y hy => hs'.1 y hy, hs'.2⟩
        · refine List.pairwise_cons.2 ⟨fun y hy => ?_, ih hm'⟩
          rcases Memory.mem_write hy with ⟨rfl, _⟩ | hy
          · show c < a
            omega
          · exact hs'.1 y hy
  · rcases Memory.mem_write hc with ⟨rfl, h⟩ | h
    · exact h
    · exact hm.2 cell h

/-- A write to a byte that exists keeps the memory in the address space. -/
theorem Memory.write_inSpace {c : Config} {m : Memory} (hm : m.inSpace c) {a : Nat}
    (ha : a < 2 ^ c.addrW) (v : Byte) : (m.write a v).inSpace c := by
  intro cell hc
  rcases Memory.mem_write hc with ⟨rfl, _⟩ | h
  · exact ha
  · exact hm cell h

/-- Canonical memories that read alike at every address are equal. -/
theorem Memory.ext_of_read {m₁ m₂ : Memory} (h₁ : m₁.wf) (h₂ : m₂.wf)
    (h : ∀ a, m₁.read a = m₂.read a) : m₁ = m₂ := by
  induction m₁ generalizing m₂ with
  | nil =>
    cases m₂ with
    | nil => rfl
    | cons x m =>
      obtain ⟨b, v⟩ := x
      have := h b
      simp only [Memory.read_nil, Memory.read_cons, if_true] at this
      exact absurd this.symm (h₂.2 (b, v) (by simp))
  | cons x m ih =>
    obtain ⟨a, u⟩ := x
    have hs₁ := List.pairwise_cons.1 h₁.1
    cases m₂ with
    | nil =>
      have := h a
      simp only [Memory.read_nil, Memory.read_cons, if_true] at this
      exact absurd this (h₁.2 (a, u) (by simp))
    | cons y n =>
      obtain ⟨b, v⟩ := y
      have hs₂ := List.pairwise_cons.1 h₂.1
      have hm : Memory.wf m := ⟨hs₁.2, fun cell hc => h₁.2 cell (by simp [hc])⟩
      have hn : Memory.wf n := ⟨hs₂.2, fun cell hc => h₂.2 cell (by simp [hc])⟩
      have hu := h₁.2 (a, u) (by simp)
      have hv := h₂.2 (b, v) (by simp)
      have below₁ : ∀ {d}, d < a → Memory.read ((a, u) :: m) d = Memory.unlisted := fun hd =>
        Memory.read_eq_unlisted_of_lt fun z hz => by
          rcases List.mem_cons.1 hz with rfl | hz
          · exact hd
          · exact Nat.lt_trans hd (hs₁.1 z hz)
      have below₂ : ∀ {d}, d < b → Memory.read ((b, v) :: n) d = Memory.unlisted := fun hd =>
        Memory.read_eq_unlisted_of_lt fun z hz => by
          rcases List.mem_cons.1 hz with rfl | hz
          · exact hd
          · exact Nat.lt_trans hd (hs₂.1 z hz)
      have hab : a = b := by
        rcases Nat.lt_trichotomy a b with hlt | heq | hgt
        · have := h a
          rw [below₂ hlt, Memory.read_cons, if_pos rfl] at this
          exact absurd this hu
        · exact heq
        · have := h b
          rw [below₁ hgt, Memory.read_cons, if_pos rfl] at this
          exact absurd this.symm hv
      subst hab
      have huv : u = v := by simpa [Memory.read_cons] using h a
      subst huv
      rw [ih hm hn fun d => ?_]
      rcases Nat.lt_trichotomy d a with hlt | heq | hgt
      · rw [Memory.read_eq_unlisted_of_lt fun z hz => Nat.lt_trans hlt (hs₁.1 z hz),
          Memory.read_eq_unlisted_of_lt fun z hz => Nat.lt_trans hlt (hs₂.1 z hz)]
      · subst heq
        rw [Memory.read_eq_unlisted_of_lt fun z hz => hs₁.1 z hz,
          Memory.read_eq_unlisted_of_lt fun z hz => hs₂.1 z hz]
      · have := h d
        rwa [Memory.read_cons, Memory.read_cons, if_neg (by omega), if_neg (by omega)] at this

end Sys2Proof.Machine
end

