-- ==== Sys2Proof/Laws/State.lean ====
section
/-!
SUPPORT. One lemma per field per update of the state, so that no later proof unfolds an update.
-/

namespace Sys2Proof.Machine

/-! ### `setMem` -/

@[simp] theorem State.setMem_cfg (s : State) (m : Memory) : (s.setMem m).cfg = s.cfg := rfl
@[simp] theorem State.setMem_mem (s : State) (m : Memory) : (s.setMem m).mem = m := rfl
@[simp] theorem State.setMem_pending (s : State) (m : Memory) : (s.setMem m).pending = s.pending := rfl
@[simp] theorem State.setMem_resp (s : State) (m : Memory) : (s.setMem m).resp = s.resp := rfl
@[simp] theorem State.setMem_received (s : State) (m : Memory) : (s.setMem m).received = s.received := rfl
@[simp] theorem State.setMem_trace (s : State) (m : Memory) : (s.setMem m).trace = s.trace := rfl
@[simp] theorem State.setMem_faultLog (s : State) (m : Memory) : (s.setMem m).faultLog = s.faultLog := rfl
@[simp] theorem State.setMem_draws (s : State) (m : Memory) : (s.setMem m).draws = s.draws := rfl

/-! ### `addAccess` -/

@[simp] theorem State.addAccess_cfg (s : State) (x : Access) : (s.addAccess x).cfg = s.cfg := rfl
@[simp] theorem State.addAccess_mem (s : State) (x : Access) : (s.addAccess x).mem = s.mem := rfl
@[simp] theorem State.addAccess_pending (s : State) (x : Access) : (s.addAccess x).pending = s.pending := rfl
@[simp] theorem State.addAccess_resp (s : State) (x : Access) : (s.addAccess x).resp = s.resp := rfl
@[simp] theorem State.addAccess_received (s : State) (x : Access) : (s.addAccess x).received = s.received := rfl
@[simp] theorem State.addAccess_trace (s : State) (x : Access) : (s.addAccess x).trace = s.trace ++ [x] := rfl
@[simp] theorem State.addAccess_faultLog (s : State) (x : Access) : (s.addAccess x).faultLog = s.faultLog := rfl
@[simp] theorem State.addAccess_draws (s : State) (x : Access) : (s.addAccess x).draws = s.draws := rfl

/-! ### `clearTrace` -/

@[simp] theorem State.clearTrace_cfg (s : State) : (s.clearTrace).cfg = s.cfg := rfl
@[simp] theorem State.clearTrace_mem (s : State) : (s.clearTrace).mem = s.mem := rfl
@[simp] theorem State.clearTrace_pending (s : State) : (s.clearTrace).pending = s.pending := rfl
@[simp] theorem State.clearTrace_resp (s : State) : (s.clearTrace).resp = s.resp := rfl
@[simp] theorem State.clearTrace_received (s : State) : (s.clearTrace).received = s.received := rfl
@[simp] theorem State.clearTrace_trace (s : State) : (s.clearTrace).trace = [] := rfl
@[simp] theorem State.clearTrace_faultLog (s : State) : (s.clearTrace).faultLog = s.faultLog := rfl
@[simp] theorem State.clearTrace_draws (s : State) : (s.clearTrace).draws = s.draws := rfl

/-! ### `setResp` -/

@[simp] theorem State.setResp_cfg (s : State) (r : Option Response) : (s.setResp r).cfg = s.cfg := rfl
@[simp] theorem State.setResp_mem (s : State) (r : Option Response) : (s.setResp r).mem = s.mem := rfl
@[simp] theorem State.setResp_pending (s : State) (r : Option Response) : (s.setResp r).pending = s.pending := rfl
@[simp] theorem State.setResp_resp (s : State) (r : Option Response) : (s.setResp r).resp = r := rfl
@[simp] theorem State.setResp_received (s : State) (r : Option Response) : (s.setResp r).received = s.received := rfl
@[simp] theorem State.setResp_trace (s : State) (r : Option Response) : (s.setResp r).trace = s.trace := rfl
@[simp] theorem State.setResp_faultLog (s : State) (r : Option Response) : (s.setResp r).faultLog = s.faultLog := rfl
@[simp] theorem State.setResp_draws (s : State) (r : Option Response) : (s.setResp r).draws = s.draws := rfl

/-! ### `logError` -/

@[simp] theorem State.logError_cfg (s : State) (e : ErrorCode) : (s.logError e).cfg = s.cfg := rfl
@[simp] theorem State.logError_mem (s : State) (e : ErrorCode) : (s.logError e).mem = s.mem := rfl
@[simp] theorem State.logError_pending (s : State) (e : ErrorCode) : (s.logError e).pending = s.pending := rfl
@[simp] theorem State.logError_resp (s : State) (e : ErrorCode) : (s.logError e).resp = s.resp := rfl
@[simp] theorem State.logError_received (s : State) (e : ErrorCode) : (s.logError e).received = s.received := rfl
@[simp] theorem State.logError_trace (s : State) (e : ErrorCode) : (s.logError e).trace = s.trace := rfl
@[simp] theorem State.logError_faultLog (s : State) (e : ErrorCode) : (s.logError e).faultLog = s.faultLog ++ [e] := rfl
@[simp] theorem State.logError_draws (s : State) (e : ErrorCode) : (s.logError e).draws = s.draws := rfl

/-! ### `addReceived` -/

@[simp] theorem State.addReceived_cfg (s : State) (w : Nat) : (s.addReceived w).cfg = s.cfg := rfl
@[simp] theorem State.addReceived_mem (s : State) (w : Nat) : (s.addReceived w).mem = s.mem := rfl
@[simp] theorem State.addReceived_pending (s : State) (w : Nat) : (s.addReceived w).pending = s.pending := rfl
@[simp] theorem State.addReceived_resp (s : State) (w : Nat) : (s.addReceived w).resp = s.resp := rfl
@[simp] theorem State.addReceived_received (s : State) (w : Nat) : (s.addReceived w).received = s.received ++ [w] := rfl
@[simp] theorem State.addReceived_trace (s : State) (w : Nat) : (s.addReceived w).trace = s.trace := rfl
@[simp] theorem State.addReceived_faultLog (s : State) (w : Nat) : (s.addReceived w).faultLog = s.faultLog := rfl
@[simp] theorem State.addReceived_draws (s : State) (w : Nat) : (s.addReceived w).draws = s.draws := rfl

/-! ### `addDraws` -/

@[simp] theorem State.addDraws_cfg (s : State) (n : Nat) : (s.addDraws n).cfg = s.cfg := rfl
@[simp] theorem State.addDraws_mem (s : State) (n : Nat) : (s.addDraws n).mem = s.mem := rfl
@[simp] theorem State.addDraws_pending (s : State) (n : Nat) : (s.addDraws n).pending = s.pending := rfl
@[simp] theorem State.addDraws_resp (s : State) (n : Nat) : (s.addDraws n).resp = s.resp := rfl
@[simp] theorem State.addDraws_received (s : State) (n : Nat) : (s.addDraws n).received = s.received := rfl
@[simp] theorem State.addDraws_trace (s : State) (n : Nat) : (s.addDraws n).trace = s.trace := rfl
@[simp] theorem State.addDraws_faultLog (s : State) (n : Nat) : (s.addDraws n).faultLog = s.faultLog := rfl
@[simp] theorem State.addDraws_draws (s : State) (n : Nat) : (s.addDraws n).draws = s.draws + n := rfl

/-! ### `setPending` -/

@[simp] theorem State.setPending_cfg (s : State) (es : List HostEvent) : (s.setPending es).cfg = s.cfg := rfl
@[simp] theorem State.setPending_mem (s : State) (es : List HostEvent) : (s.setPending es).mem = s.mem := rfl
@[simp] theorem State.setPending_pending (s : State) (es : List HostEvent) : (s.setPending es).pending = es := rfl
@[simp] theorem State.setPending_resp (s : State) (es : List HostEvent) : (s.setPending es).resp = s.resp := rfl
@[simp] theorem State.setPending_received (s : State) (es : List HostEvent) : (s.setPending es).received = s.received := rfl
@[simp] theorem State.setPending_trace (s : State) (es : List HostEvent) : (s.setPending es).trace = s.trace := rfl
@[simp] theorem State.setPending_faultLog (s : State) (es : List HostEvent) : (s.setPending es).faultLog = s.faultLog := rfl
@[simp] theorem State.setPending_draws (s : State) (es : List HostEvent) : (s.setPending es).draws = s.draws := rfl

end Sys2Proof.Machine
end

