-- ==== Sys2Proof/Laws/Ops.lean ====
section
/-!
SUPPORT. One lemma for each shared operation that says everything it does: the traced byte accesses,
the completion of a request, error entry, and the checks before them.
-/

namespace Sys2Proof.Machine

/-! ### Byte accesses -/

/-- Reading bytes only extends the trace, by one read of each index in order. -/
theorem readBytes_eq (base : Nat) (ks : List Nat) (s : State) :
    readBytes base ks s =
      { s with trace := s.trace ++ ks.map fun k => .read (base + k) (s.mem.read (base + k)) } := by
  induction ks generalizing s with
  | nil => simp [readBytes]
  | cons k ks ih => simp [readBytes, ih, busRead, State.addAccess]

/-- What one read-modify-write does. -/
theorem rmwByte_eq (a : Nat) (f : Byte → Byte) (s : State) :
    rmwByte a f s =
      { s with
        mem := s.mem.write a (f (s.mem.read a))
        trace := s.trace ++ [.read a (s.mem.read a), .write a (f (s.mem.read a))] } := by
  simp [rmwByte, busWrite, busRead, State.addAccess, State.setMem]

/-- Updating bytes changes memory and the trace only. -/
theorem updateBytes_frame (f : Nat → Byte → Byte) (base : Nat) (ks : List Nat) (s : State) :
    updateBytes f base ks s =
      { s with mem := (updateBytes f base ks s).mem, trace := (updateBytes f base ks s).trace } := by
  induction ks generalizing s with
  | nil => rfl
  | cons k ks ih =>
    rw [updateBytes, ih]
    simp [rmwByte_eq]

theorem updateBytes_wf (f : Nat → Byte → Byte) (base : Nat) (ks : List Nat) {s : State}
    (h : s.mem.wf) : (updateBytes f base ks s).mem.wf := by
  induction ks generalizing s with
  | nil => exact h
  | cons k ks ih =>
    rw [updateBytes]
    exact ih (by rw [rmwByte_eq]; exact Memory.write_wf h _ _)

theorem updateBytes_inSpace (f : Nat → Byte → Byte) (base : Nat) {ks : List Nat} {s : State}
    {c : Config} (h : s.mem.inSpace c) (hk : ∀ k ∈ ks, base + k < 2 ^ c.addrW) :
    (updateBytes f base ks s).mem.inSpace c := by
  induction ks generalizing s with
  | nil => exact h
  | cons k ks ih =>
    rw [updateBytes]
    exact ih (by rw [rmwByte_eq]; exact Memory.write_inSpace h (hk k (by simp)) _)
      fun j hj => hk j (by simp [hj])

/-- A byte outside the updated ones reads as before. -/
theorem updateBytes_read_of_not_mem (f : Nat → Byte → Byte) (base : Nat) {ks : List Nat} {a : Nat}
    (h : ∀ k ∈ ks, a ≠ base + k) (s : State) :
    (updateBytes f base ks s).mem.read a = s.mem.read a := by
  induction ks generalizing s with
  | nil => rfl
  | cons k ks ih =>
    rw [updateBytes, ih (fun j hj => h j (by simp [hj])), rmwByte_eq]
    exact Memory.read_write_of_ne _ (h k (by simp))

/-- Each updated byte becomes `f k old`, whatever the order. -/
theorem updateBytes_read_of_mem (f : Nat → Byte → Byte) (base : Nat) {ks : List Nat} {s : State}
    (hm : s.mem.wf) (hn : ks.Nodup) {k : Nat} (hk : k ∈ ks) :
    (updateBytes f base ks s).mem.read (base + k) = f k (s.mem.read (base + k)) := by
  induction ks generalizing s with
  | nil => simp at hk
  | cons j ks ih =>
    have hn' := List.nodup_cons.1 hn
    rw [updateBytes]
    have hw : (rmwByte (base + j) (f j) s).mem.wf := by
      rw [rmwByte_eq]; exact Memory.write_wf hm _ _
    rcases List.mem_cons.1 hk with rfl | hk
    · rw [updateBytes_read_of_not_mem f base (fun i hi => ?_), rmwByte_eq]
      · exact Memory.read_write_self hm _ _
      · have : i ≠ k := fun h => hn'.1 (h ▸ hi)
        omega
    · rw [ih hw hn'.2 hk, rmwByte_eq]
      have : k ≠ j := fun h => hn'.1 (h ▸ hk)
      rw [show (s.mem.write (base + j) (f j (s.mem.read (base + j)))).read (base + k) =
        s.mem.read (base + k) from Memory.read_write_of_ne _ (by omega)]

/-- The trace of an update: a read of the old byte and a write of the new one for each index, in
order. -/
theorem updateBytes_trace (f : Nat → Byte → Byte) (base : Nat) {ks : List Nat} (hn : ks.Nodup)
    (s : State) :
    (updateBytes f base ks s).trace = s.trace ++ ks.flatMap fun k =>
      [.read (base + k) (s.mem.read (base + k)),
        .write (base + k) (f k (s.mem.read (base + k)))] := by
  induction ks generalizing s with
  | nil => simp [updateBytes]
  | cons j ks ih =>
    have hn' := List.nodup_cons.1 hn
    have hold : ∀ k ∈ ks, (rmwByte (base + j) (f j) s).mem.read (base + k) = s.mem.read (base + k) :=
      fun k hk => by
        have : k ≠ j := fun h => hn'.1 (h ▸ hk)
        rw [rmwByte_eq]
        exact Memory.read_write_of_ne _ (by omega)
    rw [updateBytes, ih hn'.2, rmwByte_eq] at *
    simp only [List.flatMap_cons, List.append_assoc, List.append_cancel_left_eq, List.cons_append,
      List.nil_append, List.cons.injEq, true_and]
    refine List.flatMap_congr fun k hk => ?_
    rw [hold k hk]

/-! ### Byte indices of a range -/

theorem mem_bytesUp {r : BitRange} {k : Nat} :
    k ∈ bytesUp r ↔ firstByte r ≤ k ∧ k ≤ lastByte r := by
  simp only [bytesUp, List.mem_map, List.mem_range]
  constructor
  · rintro ⟨j, hj, rfl⟩; omega
  · rintro ⟨h₁, h₂⟩; exact ⟨k - firstByte r, by omega, by omega⟩

theorem mem_bytesDown {r : BitRange} (h : firstByte r ≤ lastByte r) {k : Nat} :
    k ∈ bytesDown r ↔ firstByte r ≤ k ∧ k ≤ lastByte r := by
  simp only [bytesDown, List.mem_map, List.mem_range]
  constructor
  · rintro ⟨j, hj, rfl⟩; omega
  · rintro ⟨h₁, h₂⟩; exact ⟨lastByte r - k, by omega, by omega⟩

theorem nodup_bytesDown (r : BitRange) : (bytesDown r).Nodup := by
  refine List.Nodup.map_on (fun x hx y hy h => ?_) List.nodup_range
  simp only [List.mem_range] at hx hy
  omega

/-- A valid range has a first byte at or below its last byte. -/
theorem firstByte_le_lastByte {r : BitRange} (h : validRange r = true) :
    firstByte r ≤ lastByte r := by
  simp only [validRange, Bool.and_eq_true, decide_eq_true_eq] at h
  simp only [firstByte, lastByte, byteOf]
  omega

theorem validRange_iff {r : BitRange} :
    validRange r = true ↔ r.beginBit < r.endBit ∧ r.endBit - r.beginBit ≤ 64 := by
  simp [validRange, span]

theorem inBounds_iff {c : Config} {base len : Nat} {r : BitRange} :
    inBounds c base len r = true ↔
      (r.endBit - 1) / 8 < len ∧ base + (r.endBit - 1) / 8 < 2 ^ c.addrW := by
  simp only [inBounds, addressExists, Bool.and_eq_true, decide_eq_true_eq]
  rfl

theorem valueFits_iff {r : BitRange} {v : Word} :
    valueFits r v = true ↔ v.toNat < 2 ^ (r.endBit - r.beginBit) := by
  simp only [valueFits, decide_eq_true_eq]
  rfl

theorem validRange_mk (b e : Nat) : validRange ⟨b, e⟩ = decide (b < e ∧ e - b ≤ 64) := by
  simp [validRange, span, Bool.decide_and]

theorem le_two_pow_sub_one_iff (a n : Nat) : a ≤ 2 ^ n - 1 ↔ a < 2 ^ n := by
  have := Nat.two_pow_pos n
  omega

theorem inBounds_mk (c : Config) (base len b e : Nat) :
    inBounds c base len ⟨b, e⟩ =
      decide ((e - 1) / 8 < len ∧ base + (e - 1) / 8 ≤ 2 ^ c.addrW - 1) := by
  rw [Bool.eq_iff_iff, inBounds_iff, decide_eq_true_eq, le_two_pow_sub_one_iff]

/-! ### Ending a request -/

theorem zext64_of_lt {v : Nat} (h : v < 2 ^ 64) : zext64 v = BitVec.ofNat 64 v := if_pos h

/-- Completing a request puts its response on the port and does nothing else. -/
theorem complete_eq (c : WidthClass) (result : Word) (nb ne : Nat) (s : State) :
    complete c result nb ne s =
      .next { s with resp := some ⟨.ok, c, result, nb, ne⟩ } := rfl

/-- Error entry puts the error's response on the port, logs it and does nothing else. -/
theorem raise_eq (e : ErrorCode) (s : State) :
    raise e s =
      .next { s with resp := some (errorResponse e), faultLog := s.faultLog ++ [e] } := rfl

theorem withRange_of_valid {r : BitRange} (h : validRange r = true) (s : State)
    (k : Host.Outcome State Fault Refusal) : withRange r s k = k := if_pos h

theorem withRange_of_invalid {r : BitRange} (h : ¬validRange r = true) (s : State)
    (k : Host.Outcome State Fault Refusal) : withRange r s k = raise .range s := if_neg h

/-- What a WRITE or MERGE can do: the first failing check of R165, or the update of its span. -/
theorem updateField_cases (f : Nat → Byte → Byte) (base len : Nat) (r : BitRange) (v : Word)
    (s : State) :
    (validRange r = false ∧ updateField f base len r v s = raise .range s) ∨
    (validRange r = true ∧ valueFits r v = false ∧
      updateField f base len r v s = raise .overflow s) ∨
    (validRange r = true ∧ valueFits r v = true ∧ inBounds s.cfg base len r = false ∧
      updateField f base len r v s = raise .bounds s) ∨
    (validRange r = true ∧ valueFits r v = true ∧ inBounds s.cfg base len r = true ∧
      updateField f base len r v s =
        complete (resolve (span r)).2 0 0 0 (updateBytes f base (bytesDown r) s)) := by
  unfold updateField withRange
  cases validRange r <;> cases valueFits r v <;> cases inBounds s.cfg base len r <;> simp

/-- A WRITE or MERGE that passes its checks. -/
theorem updateField_of_checks (f : Nat → Byte → Byte) {base len b e : Nat} {v : Word} {s : State}
    (h₁ : b < e) (h₂ : e - b ≤ 64) (h₃ : v.toNat < 2 ^ (e - b)) (h₄ : (e - 1) / 8 < len)
    (h₅ : base + (e - 1) / 8 ≤ 2 ^ s.cfg.addrW - 1) :
    updateField f base len ⟨b, e⟩ v s =
      complete (resolve (e - b)).2 0 0 0 (updateBytes f base (bytesDown ⟨b, e⟩) s) := by
  unfold updateField withRange
  rw [validRange_mk, decide_eq_true ⟨h₁, h₂⟩, inBounds_mk, decide_eq_true ⟨h₄, h₅⟩,
    show valueFits ⟨b, e⟩ v = true from decide_eq_true h₃]
  rfl

end Sys2Proof.Machine
end

