-- ==== Sys2Proof/Laws/Bits.lean ====
section
/-!
SUPPORT. The bits of a field, of a coverage mask and of placed bits, each as a Boolean at one bit
position, so that claims about fields and bytes come down to bit positions (20_memory.md R40, R41,
43_write.md R130).
-/

namespace Sys2Proof.Machine

/-- Buffer bit `i` as a Boolean. -/
def bitSet (m : Memory) (base i : Nat) : Bool := (m.read (base + i / 8)).getLsbD (7 - i % 8)

theorem bit_eq_toNat (m : Memory) (base i : Nat) : bit m base i = (bitSet m base i).toNat := by
  simp [bit, bitSet, BitVec.getLsbD, Nat.toNat_testBit, Nat.and_one_is_mod, Nat.shiftRight_eq_div_pow]

theorem bit_eq_iff {m m' : Memory} {base base' i i' : Nat} :
    bit m base i = bit m' base' i' ↔ bitSet m base i = bitSet m' base' i' := by
  rw [bit_eq_toNat, bit_eq_toNat]
  cases bitSet m base i <;> cases bitSet m' base' i' <;> simp

theorem bit_eq_zero_iff {m : Memory} {base i : Nat} : bit m base i = 0 ↔ bitSet m base i = false := by
  rw [bit_eq_toNat]; cases bitSet m base i <;> simp

/-- The field of `n` bits from bit `b`, MSB first. -/
def fieldFrom (m : Memory) (base b : Nat) : Nat → Nat
  | 0 => 0
  | n + 1 => 2 * fieldFrom m base b n + bit m base (b + n)

theorem field_eq_fieldFrom (m : Memory) (base : Nat) (r : BitRange) :
    field m base r = fieldFrom m base r.beginBit (span r) := by
  have key : ∀ n b, ((List.range n).map fun j => bit m base (b + j) <<< (n - 1 - j)).sum =
      fieldFrom m base b n := by
    intro n b
    induction n with
    | zero => rfl
    | succ n ih =>
      have hm : ((List.range n).map fun j => bit m base (b + j) <<< (n - j)) =
          (List.range n).map fun j => 2 * bit m base (b + j) <<< (n - 1 - j) := by
        refine List.map_congr_left fun j hj => ?_
        have hj := List.mem_range.1 hj
        rw [show n - j = (n - 1 - j) + 1 by omega, Nat.shiftLeft_eq, Nat.shiftLeft_eq, Nat.pow_succ]
        ring
      rw [List.range_succ, List.map_append, List.sum_append, fieldFrom, ← ih,
        show n + 1 - 1 = n by omega, hm, List.sum_map_mul_left]
      simp
  rw [← key]
  unfold field
  congr 1
  refine List.map_congr_left fun j hj => ?_
  have hj := List.mem_range.1 hj
  simp only [span] at hj ⊢
  congr 1
  omega

theorem testBit_fieldFrom (m : Memory) (base b n j : Nat) :
    (fieldFrom m base b n).testBit j = (decide (j < n) && bitSet m base (b + (n - 1 - j))) := by
  induction n generalizing j with
  | zero => simp [fieldFrom]
  | succ n ih =>
    have hbit : bit m base (b + n) < 2 := by
      rw [bit_eq_toNat]; cases bitSet m base (b + n) <;> simp
    cases j with
    | zero =>
      rw [fieldFrom, Nat.testBit_zero, bit_eq_toNat]
      cases hb : bitSet m base (b + n) <;> simp [hb, Nat.add_mod]
    | succ j =>
      rw [fieldFrom, Nat.testBit_succ, show (2 * fieldFrom m base b n + bit m base (b + n)) / 2 =
        fieldFrom m base b n by omega, ih]
      rw [show n + 1 - 1 - (j + 1) = n - 1 - j by omega]
      simp

theorem fieldFrom_lt (m : Memory) (base b n : Nat) : fieldFrom m base b n < 2 ^ n := by
  refine Nat.lt_pow_two_of_testBit _ fun j hj => ?_
  rw [testBit_fieldFrom]
  simp [Nat.not_lt.2 hj]

theorem testBit_field (m : Memory) (base : Nat) (r : BitRange) (j : Nat) :
    (field m base r).testBit j =
      (decide (j < span r) && bitSet m base (r.beginBit + (span r - 1 - j))) := by
  rw [field_eq_fieldFrom, testBit_fieldFrom]

/-- A field is below `2 ^ n` (42_read.md R110). -/
theorem field_lt (m : Memory) (base : Nat) (r : BitRange) : field m base r < 2 ^ span r := by
  rw [field_eq_fieldFrom]; exact fieldFrom_lt _ _ _ _

/-- Fields of one span whose bits agree have one value. -/
theorem field_congr {m m' : Memory} {base base' : Nat} {r r' : BitRange} (hn : span r = span r')
    (h : ∀ j < span r, bitSet m base (r.beginBit + j) = bitSet m' base' (r'.beginBit + j)) :
    field m base r = field m' base' r' := by
  refine Nat.eq_of_testBit_eq fun j => ?_
  rw [testBit_field, testBit_field, ← hn]
  by_cases hj : j < span r
  · rw [h _ (by omega)]
  · simp [hj]

/-- The field of a valid range fits the result port. -/
theorem field_lt_word {m : Memory} {base : Nat} {r : BitRange} (h : validRange r = true) :
    field m base r < 2 ^ 64 := by
  have h64 : span r ≤ 64 := by
    simp only [validRange, Bool.and_eq_true, decide_eq_true_eq] at h; exact h.2
  exact Nat.lt_of_lt_of_le (field_lt m base r) (Nat.pow_le_pow_right (by omega) h64)

/-- Bit `q` (LSB-0) of the coverage mask of byte `k` is set iff the buffer bit there is in the
range (00_scope.md R18, "coverage mask"). -/
theorem getLsbD_coverMask {r : BitRange} (hr : validRange r = true) {k q : Nat}
    (hk : k ≤ lastByte r) (hq : q < 8) :
    (coverMask r k).getLsbD q =
      decide (r.beginBit ≤ 8 * k + (7 - q) ∧ 8 * k + (7 - q) < r.endBit) := by
  rw [validRange_iff] at hr
  have hl : lastByte r = (r.endBit - 1) / 8 := rfl
  have hs : lowGap r = 8 * (lastByte r + 1) - r.endBit := rfl
  have hn : span r = r.endBit - r.beginBit := rfl
  rw [Bool.eq_iff_iff]
  simp only [coverMask, BitVec.getLsbD_ofNat, hq, decide_true, Bool.true_and,
    Nat.testBit_shiftRight, Nat.testBit_shiftLeft, Nat.testBit_two_pow_sub_one, Bool.and_eq_true,
    decide_eq_true_eq]
  omega

/-- Bit `q` (LSB-0) of the bits placed in byte `k`: value bit `v[end - 1 - i]` at buffer bit `i`
of the range, 0 past its end (R130). -/
theorem getLsbD_placedBits {r : BitRange} {v k q : Nat}
    (hk : k ≤ lastByte r) (hq : q < 8) :
    (placedBits r v k).getLsbD q =
      (decide (8 * k + (7 - q) < r.endBit) && v.testBit (r.endBit - 1 - (8 * k + (7 - q)))) := by
  have hl : lastByte r = (r.endBit - 1) / 8 := rfl
  have hs : lowGap r = 8 * (lastByte r + 1) - r.endBit := rfl
  simp only [placedBits, BitVec.getLsbD_ofNat, hq, decide_true, Bool.true_and,
    Nat.testBit_shiftRight, Nat.testBit_shiftLeft]
  by_cases h : 8 * k + (7 - q) < r.endBit
  · rw [decide_eq_true h, decide_eq_true (by omega)]
    congr 2
    omega
  · rw [decide_eq_false h, decide_eq_false (by omega), Bool.false_and, Bool.false_and]

/-- A value that fits the span has no bit before the range's first bit. -/
theorem testBit_value_eq_false {r : BitRange} {v i : Nat} (hv : v < 2 ^ span r)
    (hi : i < r.beginBit) : v.testBit (r.endBit - 1 - i) = false ∨ r.endBit ≤ r.beginBit := by
  by_cases h : r.beginBit < r.endBit
  · left
    refine Nat.testBit_lt_two_pow (Nat.lt_of_lt_of_le hv (Nat.pow_le_pow_right (by omega) ?_))
    simp only [span]; omega
  · right; omega

end Sys2Proof.Machine
end

