-- ==== Sys2Proof/Laws/Encoding.lean ====
section
/-!
SUPPORT. How a bit field of a packed word reads back: fields packed above it do not matter, and the
field packed at its position is what it holds. Every layout claim follows from these two.
-/

namespace Sys2Proof

theorem bitField_lt (w lo width : Nat) : bitField w lo width < 2 ^ width :=
  Nat.mod_lt _ (Nat.two_pow_pos _)

/-- A field below position `n` does not see what is packed from `n` on. -/
theorem bitField_add_shiftLeft_of_le {lo width n : Nat} (h : lo + width ≤ n) (x y : Nat) :
    bitField (x + y <<< n) lo width = bitField x lo width := by
  simp only [bitField, Nat.shiftRight_eq_div_pow, Nat.shiftLeft_eq]
  rw [show y * 2 ^ n = 2 ^ lo * (2 ^ width * (y * 2 ^ (n - (lo + width)))) by
    rw [show n = lo + (width + (n - (lo + width))) by omega]
    simp only [Nat.pow_add]
    rw [show lo + (width + (n - (lo + width))) - (lo + width) = n - (lo + width) by omega]
    ring]
  rw [Nat.add_mul_div_left _ _ (Nat.two_pow_pos _), Nat.add_mul_mod_self_left]

/-- The field packed at position `n` is what was packed there. -/
theorem bitField_add_shiftLeft {x n : Nat} (hx : x < 2 ^ n) (y width : Nat) :
    bitField (x + y <<< n) n width = y % 2 ^ width := by
  simp only [bitField, Nat.shiftRight_eq_div_pow, Nat.shiftLeft_eq]
  rw [Nat.mul_comm y, Nat.add_mul_div_left _ _ (Nat.two_pow_pos _), Nat.div_eq_of_lt hx, Nat.zero_add]

/-- Packing a field of `width` bits on top of a word of `n` bits gives a word of `n + width` bits. -/
theorem add_shiftLeft_lt {x y n width : Nat} (hx : x < 2 ^ n) (hy : y < 2 ^ width) :
    x + y <<< n < 2 ^ (n + width) := by
  rw [Nat.shiftLeft_eq, Nat.pow_add]
  nlinarith [Nat.two_pow_pos n]

/-- A word is its low field with the rest packed above it. -/
theorem bitField_add_bitField (w lo a b : Nat) :
    bitField w lo a + bitField w (lo + a) b <<< a = bitField w lo (a + b) := by
  simp only [bitField, Nat.shiftRight_eq_div_pow, Nat.shiftLeft_eq, Nat.pow_add, ← Nat.div_div_eq_div_mul]
  rw [Nat.mod_mul, Nat.mul_comm]

/-- Every field the request port carries fits its width. -/
theorem unpackRequest_fits (c : Config) (w : Nat) :
    (unpackRequest c w).op < 2 ^ 4 ∧ (unpackRequest c w).base < 2 ^ c.addrW ∧
      (unpackRequest c w).len < 2 ^ c.addrW ∧ (unpackRequest c w).beginBit < 2 ^ c.bitIndexW ∧
      (unpackRequest c w).endBit < 2 ^ c.bitIndexW :=
  ⟨bitField_lt _ _ _, bitField_lt _ _ _, bitField_lt _ _ _, bitField_lt _ _ _, bitField_lt _ _ _⟩

/-- The requests the decoder can read from a word, by the value of `op`. -/
theorem decode_cases (c : Config) (w : Nat) :
    (bitField w 0 4 = 0x1 ∧
      decode c w = .ok (.range ⟨(unpackRequest c w).beginBit, (unpackRequest c w).endBit⟩)) ∨
    (bitField w 0 4 = 0x2 ∧
      decode c w = .ok (.width ⟨(unpackRequest c w).beginBit, (unpackRequest c w).endBit⟩)) ∨
    (bitField w 0 4 = 0x3 ∧ decode c w = .ok (.byteof (unpackRequest c w).beginBit)) ∨
    (bitField w 0 4 = 0x4 ∧ decode c w = .ok (.bitoff (unpackRequest c w).beginBit)) ∨
    (bitField w 0 4 = 0x5 ∧
      decode c w = .ok (.onebyte ⟨(unpackRequest c w).beginBit, (unpackRequest c w).endBit⟩)) ∨
    (bitField w 0 4 = 0x6 ∧ decode c w = .ok (.norm (unpackRequest c w).base
      ⟨(unpackRequest c w).beginBit, (unpackRequest c w).endBit⟩)) ∨
    (bitField w 0 4 = 0x8 ∧ decode c w = .ok (.read (unpackRequest c w).base
      (unpackRequest c w).len ⟨(unpackRequest c w).beginBit, (unpackRequest c w).endBit⟩)) ∨
    (bitField w 0 4 = 0x9 ∧ decode c w = .ok (.write (unpackRequest c w).base
      (unpackRequest c w).len ⟨(unpackRequest c w).beginBit, (unpackRequest c w).endBit⟩
      (unpackRequest c w).value)) ∨
    (bitField w 0 4 = 0xA ∧ decode c w = .ok (.merge (unpackRequest c w).base
      (unpackRequest c w).len ⟨(unpackRequest c w).beginBit, (unpackRequest c w).endBit⟩
      (unpackRequest c w).value)) ∨
    (bitField w 0 4 ∈ [0x0, 0x7, 0xB, 0xC, 0xD, 0xE, 0xF] ∧
      decode c w = .error (.reservedOpcode (bitField w 0 4))) := by
  have hlt : bitField w 0 4 < 16 := bitField_lt _ _ _
  have hop : (unpackRequest c w).op = bitField w 0 4 := rfl
  generalize bitField w 0 4 = n at *
  unfold decode selectRequest
  interval_cases n <;> simp [hop]

end Sys2Proof
end

