-- ==== Sys2Proof/Laws/Field.lean ====
section
/-!
SUPPORT. What WRITE and MERGE do to each bit of the buffer memory (43_write.md R131 and R135 "at the
bit level"), and one lemma for each request that says everything its meaning can do.
-/

namespace Sys2Proof.Machine

theorem getLsbD_overwriteByte {r : BitRange} (hr : validRange r = true) {v k q : Nat}
    (hv : v < 2 ^ span r) (hk : k ≤ lastByte r) (hq : q < 8) (old : Byte) :
    (overwriteByte r v k old).getLsbD q =
      if r.beginBit ≤ 8 * k + (7 - q) ∧ 8 * k + (7 - q) < r.endBit then
        v.testBit (r.endBit - 1 - (8 * k + (7 - q)))
      else old.getLsbD q := by
  have hb := testBit_value_eq_false (i := 8 * k + (7 - q)) hv
  have hr' := validRange_iff.1 hr
  simp only [overwriteByte, BitVec.getLsbD_or, BitVec.getLsbD_and, BitVec.getLsbD_not,
    getLsbD_coverMask hr hk hq, getLsbD_placedBits hk hq, hq, decide_true, Bool.true_and]
  by_cases h₁ : r.beginBit ≤ 8 * k + (7 - q) <;> by_cases h₂ : 8 * k + (7 - q) < r.endBit
  · simp [h₁, h₂]
  · simp [h₂]
  · have : v.testBit (r.endBit - 1 - (8 * k + (7 - q))) = false := by
      rcases hb (by omega) with h | h
      · exact h
      · omega
    simp [h₁, this]
  · simp [h₂]

theorem getLsbD_mergeByte {r : BitRange} (hr : validRange r = true) {v k q : Nat}
    (hv : v < 2 ^ span r) (hk : k ≤ lastByte r) (hq : q < 8) (old : Byte) :
    (mergeByte r v k old).getLsbD q =
      if r.beginBit ≤ 8 * k + (7 - q) ∧ 8 * k + (7 - q) < r.endBit then
        old.getLsbD q || v.testBit (r.endBit - 1 - (8 * k + (7 - q)))
      else old.getLsbD q := by
  have hb := testBit_value_eq_false (i := 8 * k + (7 - q)) hv
  have hr' := validRange_iff.1 hr
  simp only [mergeByte, BitVec.getLsbD_or, getLsbD_placedBits hk hq]
  by_cases h₁ : r.beginBit ≤ 8 * k + (7 - q) <;> by_cases h₂ : 8 * k + (7 - q) < r.endBit
  · simp [h₁, h₂]
  · simp [h₂]
  · have : v.testBit (r.endBit - 1 - (8 * k + (7 - q))) = false := by
      rcases hb (by omega) with h | h
      · exact h
      · omega
    simp [h₁, this]
  · simp [h₂]

/-- A bit of the buffer after an update of the span: the bit of the updated byte, or the old bit. -/
theorem bitSet_updateBytes (f : Nat → Byte → Byte) (base : Nat) {r : BitRange}
    (hr : validRange r = true) {s : State} (hm : s.mem.wf) (i : Nat) :
    bitSet (updateBytes f base (bytesDown r) s).mem base i =
      if firstByte r ≤ i / 8 ∧ i / 8 ≤ lastByte r then
        (f (i / 8) (s.mem.read (base + i / 8))).getLsbD (7 - i % 8)
      else bitSet s.mem base i := by
  have hle := firstByte_le_lastByte hr
  by_cases h : firstByte r ≤ i / 8 ∧ i / 8 ≤ lastByte r
  · rw [if_pos h, bitSet,
      updateBytes_read_of_mem f base hm (nodup_bytesDown r) ((mem_bytesDown hle).2 h)]
  · rw [if_neg h, bitSet, bitSet, updateBytes_read_of_not_mem f base fun k hk hc => ?_]
    rw [mem_bytesDown hle] at hk
    exact h (by omega)

/-- WRITE at the bit level (R131): the range's bits become the value's, every other bit stays. -/
theorem bitSet_overwrite (base : Nat) {r : BitRange} (hr : validRange r = true) {v : Nat}
    (hv : v < 2 ^ span r) {s : State} (hm : s.mem.wf) (i : Nat) :
    bitSet (updateBytes (overwriteByte r v) base (bytesDown r) s).mem base i =
      if r.beginBit ≤ i ∧ i < r.endBit then v.testBit (r.endBit - 1 - i)
      else bitSet s.mem base i := by
  have hr' := validRange_iff.1 hr
  rw [bitSet_updateBytes _ _ hr hm]
  by_cases h : firstByte r ≤ i / 8 ∧ i / 8 ≤ lastByte r
  · rw [if_pos h, getLsbD_overwriteByte hr hv h.2 (by omega)]
    rw [show 8 * (i / 8) + (7 - (7 - i % 8)) = i by omega]
    rfl
  · rw [if_neg h, if_neg]
    simp only [firstByte, lastByte, byteOf] at h
    omega

/-- MERGE at the bit level (R135): the range's bits are ORed with the value's, every other bit
stays. -/
theorem bitSet_merge (base : Nat) {r : BitRange} (hr : validRange r = true) {v : Nat}
    (hv : v < 2 ^ span r) {s : State} (hm : s.mem.wf) (i : Nat) :
    bitSet (updateBytes (mergeByte r v) base (bytesDown r) s).mem base i =
      if r.beginBit ≤ i ∧ i < r.endBit then
        bitSet s.mem base i || v.testBit (r.endBit - 1 - i)
      else bitSet s.mem base i := by
  have hr' := validRange_iff.1 hr
  rw [bitSet_updateBytes _ _ hr hm]
  by_cases h : firstByte r ≤ i / 8 ∧ i / 8 ≤ lastByte r
  · rw [if_pos h, getLsbD_mergeByte hr hv h.2 (by omega)]
    rw [show 8 * (i / 8) + (7 - (7 - i % 8)) = i by omega]
    rfl
  · rw [if_neg h, if_neg]
    simp only [firstByte, lastByte, byteOf] at h
    omega

/-- A byte whose bits all agree is one byte: memories agree at an address when the eight buffer bits
there do. -/
theorem read_eq_of_bitSet {m m' : Memory} {base k : Nat}
    (h : ∀ p < 8, bitSet m base (8 * k + p) = bitSet m' base (8 * k + p)) :
    m.read (base + k) = m'.read (base + k) := by
  refine BitVec.eq_of_getLsbD_eq fun q hq => ?_
  have := h (7 - q) (by omega)
  simp only [bitSet, show (8 * k + (7 - q)) / 8 = k by omega,
    show 7 - (8 * k + (7 - q)) % 8 = q by omega] at this
  exact this

/-! ### What each request can do -/

theorem execRange_eq (r : BitRange) (s : State) :
    exec (.range r) s =
      if validRange r then complete (resolve (span r)).2 (zext64 (span r)) 0 0 s
      else raise .range s := rfl

theorem execWidth_eq (r : BitRange) (s : State) :
    exec (.width r) s =
      if validRange r then complete (resolve (span r)).2 (zext64 (resolve (span r)).1) 0 0 s
      else raise .range s := rfl

theorem execByteof_eq (i : Nat) (s : State) :
    exec (.byteof i) s = complete .none (zext64 (i / 8)) 0 0 s := rfl

theorem execBitoff_eq (i : Nat) (s : State) :
    exec (.bitoff i) s = complete .none (zext64 (i % 8)) 0 0 s := rfl

theorem execOnebyte_eq (r : BitRange) (s : State) :
    exec (.onebyte r) s =
      if validRange r then
        complete (resolve (span r)).2 (if spansOneByte r then 1 else 0) 0 0 s
      else raise .range s := rfl

theorem execNorm_eq (base : Nat) (r : BitRange) (s : State) :
    exec (.norm base r) s =
      if validRange r then
        if addressExists s.cfg (base + r.beginBit / 8) then
          complete (resolve (span r)).2 (zext64 (base + r.beginBit / 8)) (r.beginBit % 8)
            (r.endBit - 8 * (r.beginBit / 8)) s
        else raise .bounds s
      else raise .range s := rfl

theorem execRead_eq (base len : Nat) (r : BitRange) (s : State) :
    exec (.read base len r) s =
      if validRange r then
        if inBounds s.cfg base len r then
          complete (resolve (span r)).2 (zext64 (field s.mem base r)) 0 0
            (readBytes base (bytesUp r) s)
        else raise .bounds s
      else raise .range s := rfl

theorem execWrite_eq (base len : Nat) (r : BitRange) (v : Word) (s : State) :
    exec (.write base len r v) s = updateField (overwriteByte r v.toNat) base len r v s := rfl

theorem execMerge_eq (base len : Nat) (r : BitRange) (v : Word) (s : State) :
    exec (.merge base len r v) s = updateField (mergeByte r v.toNat) base len r v s := rfl

/-- Everything a request can do: raise one error, which touches nothing else, or complete with a
response, having changed memory and the trace at most. -/
theorem exec_cases (i : Instr) (s : State) :
    (∃ e, exec i s = .next { s with resp := some (errorResponse e), faultLog := s.faultLog ++ [e] }) ∨
    (∃ m tr c v nb ne, exec i s =
      .next { s with mem := m, trace := tr, resp := some ⟨.ok, c, v, nb, ne⟩ }) := by
  have upd : ∀ (f : Nat → Byte → Byte) (base len : Nat) (r : BitRange) (v : Word),
      (∃ e, updateField f base len r v s =
        .next { s with resp := some (errorResponse e), faultLog := s.faultLog ++ [e] }) ∨
      (∃ m tr c w nb ne, updateField f base len r v s =
        .next { s with mem := m, trace := tr, resp := some ⟨.ok, c, w, nb, ne⟩ }) := by
    intro f base len r v
    rcases updateField_cases f base len r v s with ⟨_, h⟩ | ⟨_, _, h⟩ | ⟨_, _, _, h⟩ | ⟨_, _, _, h⟩
    · exact .inl ⟨_, h⟩
    · exact .inl ⟨_, h⟩
    · exact .inl ⟨_, h⟩
    · rw [updateBytes_frame] at h
      exact .inr ⟨_, _, _, _, _, _, h⟩
  cases i with
  | range r =>
    rw [execRange_eq]; split
    · exact .inr ⟨s.mem, s.trace, _, _, _, _, rfl⟩
    · exact .inl ⟨_, rfl⟩
  | width r =>
    rw [execWidth_eq]; split
    · exact .inr ⟨s.mem, s.trace, _, _, _, _, rfl⟩
    · exact .inl ⟨_, rfl⟩
  | byteof i => exact .inr ⟨s.mem, s.trace, _, _, _, _, rfl⟩
  | bitoff i => exact .inr ⟨s.mem, s.trace, _, _, _, _, rfl⟩
  | onebyte r =>
    rw [execOnebyte_eq]; split
    · exact .inr ⟨s.mem, s.trace, _, _, _, _, rfl⟩
    · exact .inl ⟨_, rfl⟩
  | norm base r =>
    rw [execNorm_eq]; split
    · split
      · exact .inr ⟨s.mem, s.trace, _, _, _, _, rfl⟩
      · exact .inl ⟨_, rfl⟩
    · exact .inl ⟨_, rfl⟩
  | read base len r =>
    rw [execRead_eq]; split
    · split
      · rw [readBytes_eq]; exact .inr ⟨s.mem, _, _, _, _, _, rfl⟩
      · exact .inl ⟨_, rfl⟩
    · exact .inl ⟨_, rfl⟩
  | write base len r v => exact upd _ base len r v
  | merge base len r v => exact upd _ base len r v

/-- A decoded request never raises ERR_OPCODE. -/
theorem exec_status_ne_opcode {i : Instr} {s t : State} {r : Response} (h : exec i s = .next t)
    (hr : t.resp = some r) : r.status ≠ .err .opcode := by
  have ok : ∀ {c : WidthClass} {v : Word} {nb ne : Nat} {s' : State},
      complete c v nb ne s' = .next t → r.status ≠ .err .opcode := by
    intro c v nb ne s' h; cases h; cases hr; simp
  have err : ∀ {e : ErrorCode} {s' : State}, raise e s' = .next t → e ≠ .opcode →
      r.status ≠ .err .opcode := by
    intro e s' h he; cases h; cases hr; simpa [errorResponse] using he
  have upd : ∀ {f : Nat → Byte → Byte} {base len : Nat} {q : BitRange} {v : Word},
      updateField f base len q v s = .next t → r.status ≠ .err .opcode := by
    intro f base len q v h
    rcases updateField_cases f base len q v s with ⟨_, h'⟩ | ⟨_, _, h'⟩ | ⟨_, _, _, h'⟩ | ⟨_, _, _, h'⟩ <;>
      rw [h'] at h
    · exact err h nofun
    · exact err h nofun
    · exact err h nofun
    · exact ok h
  cases i with
  | range q => rw [execRange_eq] at h; split at h; exacts [ok h, err h nofun]
  | width q => rw [execWidth_eq] at h; split at h; exacts [ok h, err h nofun]
  | byteof i => exact ok h
  | bitoff i => exact ok h
  | onebyte q => rw [execOnebyte_eq] at h; split at h; exacts [ok h, err h nofun]
  | norm base q =>
    rw [execNorm_eq] at h
    split at h
    · split at h; exacts [ok h, err h nofun]
    · exact err h nofun
  | read base len q =>
    rw [execRead_eq] at h
    split at h
    · split at h; exacts [ok h, err h nofun]
    · exact err h nofun
  | write base len q v => exact upd h
  | merge base len q v => exact upd h

end Sys2Proof.Machine
end

