-- ==== Sys2Proof/Laws/PerInstr.lean ====
section
/-!
SUPPORT. Laws of every instruction, one lemma per constructor. `EncodedOpcode`: the low four bits of
the encoded word are the opcode of the instruction's row (30_encoding.md R61), at every pair of
widths and whatever the operands.
-/

namespace Sys2Proof.Laws.EncodedOpcode

/-- The `op` value of each row of R61. -/
def opcode : Instr → Nat
  | .range _ => 0x1
  | .width _ => 0x2
  | .byteof _ => 0x3
  | .bitoff _ => 0x4
  | .onebyte _ => 0x5
  | .norm _ _ => 0x6
  | .read _ _ _ => 0x8
  | .write _ _ _ _ => 0x9
  | .merge _ _ _ _ => 0xA

/-- The encoded word selects the instruction's row. -/
def Statement (i : Instr) : Prop := ∀ c : Config, bitField (encode c i) 0 4 = opcode i

/-- Whatever is packed above them, the low four bits are `op`. -/
theorem bitField_packRequest (c : Config) (q : Request) (h : q.op < 2 ^ 4) :
    bitField (packRequest c q) 0 4 = q.op := by
  unfold packRequest
  iterate 5 rw [bitField_add_shiftLeft_of_le (by omega)]
  simp only [bitField, Nat.shiftRight_zero]
  exact Nat.mod_eq_of_lt h

theorem range (r : BitRange) : Statement (.range r) :=
  fun c => bitField_packRequest c _ (by simp [requestOf])

theorem width (r : BitRange) : Statement (.width r) :=
  fun c => bitField_packRequest c _ (by simp [requestOf])

theorem byteof (bit : Nat) : Statement (.byteof bit) :=
  fun c => bitField_packRequest c _ (by simp [requestOf])

theorem bitoff (bit : Nat) : Statement (.bitoff bit) :=
  fun c => bitField_packRequest c _ (by simp [requestOf])

theorem onebyte (r : BitRange) : Statement (.onebyte r) :=
  fun c => bitField_packRequest c _ (by simp [requestOf])

theorem norm (base : Nat) (r : BitRange) : Statement (.norm base r) :=
  fun c => bitField_packRequest c _ (by simp [requestOf])

theorem read (base : Nat) (len : Nat) (r : BitRange) : Statement (.read base len r) :=
  fun c => bitField_packRequest c _ (by simp [requestOf])

theorem write (base : Nat) (len : Nat) (r : BitRange) (v : Word) : Statement (.write base len r v) :=
  fun c => bitField_packRequest c _ (by simp [requestOf])

theorem merge (base : Nat) (len : Nat) (r : BitRange) (v : Word) : Statement (.merge base len r v) :=
  fun c => bitField_packRequest c _ (by simp [requestOf])

end Sys2Proof.Laws.EncodedOpcode
end

