-- ==== Sys2Proof/Laws/Port.lean ====
section
/-!
SUPPORT. What each action of the host can do to the state, one lemma an action, and what one step is
on each: the lemmas a proof about a run cites instead of unfolding the port.
-/

namespace Sys2Proof.Machine

/-! ### A step -/

theorem step_idle {s : State} (h : s.pending = []) : step s = .next s := by
  simp only [step, h]

theorem step_serve {s : State} {e : HostEvent} {es : List HostEvent} (h : s.pending = e :: es) :
    step s = serve e (s.setPending es) := by
  simp only [step, h]

/-- A word placed by `withFetchWord` is served by the very next step. -/
theorem step_withFetchWord (s : State) (nbits w : Nat) :
    step (s.withFetchWord nbits w) = serveRequest (w % 2 ^ nbits) s := rfl

/-! ### Requests -/

theorem runRequest_of_decode {s : State} {w : Nat} {i : Instr} (h : decode s.cfg w = .ok i) :
    runRequest w s = exec i s := by
  simp only [runRequest, h]

theorem runRequest_of_reserved {s : State} {w : Nat} {x : DecodeError}
    (h : decode s.cfg w = .error x) : runRequest w s = raise .opcode s := by
  cases x; simp only [runRequest, h]

theorem serveRequest_of_decode {s : State} {w : Nat} {i : Instr} (h : decode s.cfg w = .ok i) :
    serveRequest w s = exec i s.clearTrace := runRequest_of_decode h

/-- Everything serving a request can do: one error, which touches nothing else, or a response with
status OK, having changed memory and the trace at most. -/
theorem serveRequest_cases (w : Nat) (s : State) :
    (∃ e, serveRequest w s = .next { s with
      trace := [], resp := some (errorResponse e), faultLog := s.faultLog ++ [e] }) ∨
    (∃ m tr c v nb ne, serveRequest w s =
      .next { s with mem := m, trace := tr, resp := some ⟨.ok, c, v, nb, ne⟩ }) := by
  cases hd : decode s.cfg w with
  | ok i =>
    rw [serveRequest_of_decode hd]
    rcases exec_cases i s.clearTrace with ⟨e, h⟩ | ⟨m, tr, c, v, nb, ne, h⟩
    · exact .inl ⟨e, h⟩
    · exact .inr ⟨m, tr, c, v, nb, ne, h⟩
  | error x => exact .inl ⟨.opcode, runRequest_of_reserved (s := s.clearTrace) hd⟩

/-- A request never stops the machine. -/
theorem serveRequest_next (w : Nat) (s : State) : ∃ t, serveRequest w s = .next t := by
  rcases serveRequest_cases w s with ⟨_, h⟩ | ⟨_, _, _, _, _, _, h⟩ <;> exact ⟨_, h⟩

/-- Only bytes that the request writes are among those it touches. -/
theorem writtenByWord_subset {c : Config} {w a : Nat} (h : a ∈ writtenByWord c w) :
    a ∈ touchedByWord c w := by
  unfold writtenByWord at h
  unfold touchedByWord
  split at h
  · next i hd =>
    cases i <;> simp_all [writtenBytes]
  · simp at h

/-- The bytes a request touches exist (R56). -/
theorem touchedByWord_inSpace {c : Config} {w a : Nat} (h : a ∈ touchedByWord c w) :
    a < 2 ^ c.addrW := by
  have key : ∀ {base len : Nat} {r : BitRange}, inBounds c base len r = true →
      a ∈ (bytesUp r).map (base + ·) → a < 2 ^ c.addrW := by
    intro base len r hi ha
    obtain ⟨k, hk, rfl⟩ := List.mem_map.1 ha
    have h₁ := (inBounds_iff.1 hi).2
    have h₂ : k ≤ (r.endBit - 1) / 8 := (mem_bytesUp.1 hk).2
    omega
  unfold touchedByWord at h
  split at h
  · next i hd =>
    cases i <;> simp only [touchedBytes] at h
    case read base len r =>
      split at h
      · next hc => exact key (Bool.and_eq_true_iff.1 hc).2 h
      · simp at h
    case write base len r v =>
      split at h
      · next hc => exact key (Bool.and_eq_true_iff.1 hc).2 h
      · simp at h
    case merge base len r v =>
      split at h
      · next hc => exact key (Bool.and_eq_true_iff.1 hc).2 h
      · simp at h
    all_goals simp at h
  · simp at h

/-! ### Where a request acts, and what it sees -/

/-- Where the shared body of WRITE and MERGE acts. -/
theorem updateField_footprint {f : Nat → Byte → Byte} {base len : Nat} {r : BitRange} {v : Word}
    {s t : State} (h : updateField f base len r v s = .next t) :
    t.cfg = s.cfg ∧ (s.mem.wf → t.mem.wf) ∧ (s.mem.inSpace s.cfg → t.mem.inSpace s.cfg) ∧
    (∀ a, a ∉ (if validRange r && valueFits r v && inBounds s.cfg base len r then
        (bytesUp r).map (base + ·) else []) → t.mem.read a = s.mem.read a) ∧
    ∃ tr, t.trace = s.trace ++ tr ∧ ∀ x ∈ tr, accessAddr x ∈
      (if validRange r && valueFits r v && inBounds s.cfg base len r then
        (bytesUp r).map (base + ·) else []) := by
  rcases updateField_cases f base len r v s with ⟨_, h'⟩ | ⟨_, _, h'⟩ | ⟨_, _, _, h'⟩ | ⟨h₁, h₂, h₃, h'⟩ <;>
    rw [h'] at h
  iterate 3 cases h; exact ⟨rfl, id, id, fun _ _ => rfl, [], by simp, by simp⟩
  cases h
  have hfl := firstByte_le_lastByte h₁
  have hb : ∀ k ∈ bytesDown r, base + k < 2 ^ s.cfg.addrW := fun k hk => by
    have hk : k ≤ (r.endBit - 1) / 8 := ((mem_bytesDown hfl).1 hk).2
    have := (inBounds_iff.1 h₃).2
    omega
  have hm : ∀ k ∈ bytesDown r, base + k ∈ (bytesUp r).map (base + ·) := fun k hk =>
    List.mem_map.2 ⟨k, mem_bytesUp.2 ((mem_bytesDown hfl).1 hk), rfl⟩
  simp only [h₁, h₂, h₃, Bool.and_self, if_true]
  have hc : (updateBytes f base (bytesDown r) s).cfg = s.cfg := by rw [updateBytes_frame]
  refine ⟨hc, fun hw => updateBytes_wf f base _ hw,
    fun hs => updateBytes_inSpace f base hs hb, fun a ha => ?_, _,
    updateBytes_trace f base (nodup_bytesDown r) s, fun x hx => ?_⟩
  · exact updateBytes_read_of_not_mem f base (ks := bytesDown r)
      (fun k hk he => ha (by rw [he]; exact hm k hk)) s
  · obtain ⟨k, hk, hx⟩ := List.mem_flatMap.1 hx
    simp only [List.mem_cons, List.not_mem_nil, or_false] at hx
    rcases hx with rfl | rfl <;> exact hm k hk

/-- Where a request acts: it reads and writes only the bytes of `touchedBytes`, and changes only
those of `writtenBytes`. -/
theorem exec_footprint {i : Instr} {s t : State} (h : exec i s = .next t) :
    t.cfg = s.cfg ∧ (s.mem.wf → t.mem.wf) ∧ (s.mem.inSpace s.cfg → t.mem.inSpace s.cfg) ∧
    (∀ a, a ∉ writtenBytes s.cfg i → t.mem.read a = s.mem.read a) ∧
    ∃ tr, t.trace = s.trace ++ tr ∧ ∀ x ∈ tr, accessAddr x ∈ touchedBytes s.cfg i := by
  have none : ∀ {t : State} {l : List Nat}, t.cfg = s.cfg → t.mem = s.mem → t.trace = s.trace →
      t.cfg = s.cfg ∧ (s.mem.wf → t.mem.wf) ∧ (s.mem.inSpace s.cfg → t.mem.inSpace s.cfg) ∧
      (∀ a, a ∉ writtenBytes s.cfg i → t.mem.read a = s.mem.read a) ∧
      ∃ tr, t.trace = s.trace ++ tr ∧ ∀ x ∈ tr, accessAddr x ∈ l := by
    intro t l h₁ h₂ h₃
    refine ⟨h₁, fun h => h₂ ▸ h, fun h => h₂ ▸ h, fun a _ => by rw [h₂], [], by simp [h₃], by simp⟩
  cases i with
  | range r => rw [execRange_eq] at h; split at h <;> cases h <;> exact none rfl rfl rfl
  | width r => rw [execWidth_eq] at h; split at h <;> cases h <;> exact none rfl rfl rfl
  | byteof i => cases h; exact none rfl rfl rfl
  | bitoff i => cases h; exact none rfl rfl rfl
  | onebyte r => rw [execOnebyte_eq] at h; split at h <;> cases h <;> exact none rfl rfl rfl
  | norm base r =>
    rw [execNorm_eq] at h; split at h
    · split at h <;> cases h <;> exact none rfl rfl rfl
    · cases h; exact none rfl rfl rfl
  | read base len r =>
    rw [execRead_eq] at h; split at h
    · next hv =>
      split at h
      · next hi =>
        cases h
        rw [readBytes_eq]
        refine ⟨rfl, id, id, fun _ _ => rfl, _, rfl, fun x hx => ?_⟩
        obtain ⟨k, hk, rfl⟩ := List.mem_map.1 hx
        simp only [touchedBytes, hv, hi, Bool.and_self, if_true]
        exact List.mem_map.2 ⟨k, hk, rfl⟩
      · cases h; exact none rfl rfl rfl
    · cases h; exact none rfl rfl rfl
  | write base len r v => exact updateField_footprint h
  | merge base len r v => exact updateField_footprint h

/-- Where serving a request acts. -/
theorem serveRequest_footprint {w : Nat} {s t : State} (h : serveRequest w s = .next t) :
    t.cfg = s.cfg ∧ (s.mem.wf → t.mem.wf) ∧ (s.mem.inSpace s.cfg → t.mem.inSpace s.cfg) ∧
    (∀ a, a ∉ writtenByWord s.cfg w → t.mem.read a = s.mem.read a) ∧
    ∀ x ∈ t.trace, accessAddr x ∈ touchedByWord s.cfg w := by
  cases hd : decode s.cfg w with
  | ok i =>
    rw [serveRequest_of_decode hd] at h
    obtain ⟨h₁, h₂, h₃, h₄, tr, h₅, h₆⟩ := exec_footprint h
    simp only [State.clearTrace_cfg] at h₄ h₆
    refine ⟨h₁, h₂, h₃, fun a ha => h₄ a ?_, fun x hx => ?_⟩
    · simpa only [writtenByWord, hd] using ha
    · rw [h₅] at hx
      simpa only [touchedByWord, hd] using h₆ x hx
  | error x =>
    rw [show serveRequest w s = _ from runRequest_of_reserved (s := s.clearTrace) hd] at h
    cases h
    exact ⟨rfl, id, id, fun _ _ => rfl, by simp⟩

/-- A field is a function of the bytes of its span. -/
theorem field_congr_touched {m m' : Memory} {base : Nat} {r : BitRange} (hv : validRange r = true)
    (h : ∀ k ∈ bytesUp r, m.read (base + k) = m'.read (base + k)) :
    field m base r = field m' base r := by
  refine field_congr rfl fun j hj => ?_
  have hv := validRange_iff.1 hv
  simp only [span] at hj
  simp only [bitSet]
  rw [h _ (mem_bytesUp.2 ?_)]
  simp only [firstByte, lastByte, byteOf]
  omega

/-- Updating bytes sees nothing but the updated bytes. -/
theorem updateBytes_congr (f : Nat → Byte → Byte) (base : Nat) {ks : List Nat} (hn : ks.Nodup)
    {s s' : State} (hw : s.mem.wf) (hw' : s'.mem.wf)
    (h : ∀ k ∈ ks, s.mem.read (base + k) = s'.mem.read (base + k)) (ht : s.trace = s'.trace) :
    (updateBytes f base ks s).trace = (updateBytes f base ks s').trace ∧
    ∀ k ∈ ks, (updateBytes f base ks s).mem.read (base + k) =
      (updateBytes f base ks s').mem.read (base + k) := by
  refine ⟨?_, fun k hk => ?_⟩
  · rw [updateBytes_trace f base hn, updateBytes_trace f base hn, ht]
    congr 1
    refine List.flatMap_congr fun k hk => ?_
    rw [h k hk]
  · rw [updateBytes_read_of_mem f base hw hn hk, updateBytes_read_of_mem f base hw' hn hk, h k hk]

/-- A request sees nothing but the widths and the bytes it touches: from two states that agree on
those it gives the same response, trace, log entry and touched bytes. -/
theorem exec_congr (i : Instr) {s s' t t' : State} (hc : s.cfg = s'.cfg) (hw : s.mem.wf)
    (hw' : s'.mem.wf) (ht : s.trace = s'.trace) (hf : s.faultLog = s'.faultLog)
    (h : ∀ a ∈ touchedBytes s.cfg i, s.mem.read a = s'.mem.read a)
    (ht₁ : exec i s = .next t) (ht₂ : exec i s' = .next t') :
    t.resp = t'.resp ∧ t.trace = t'.trace ∧ t.faultLog = t'.faultLog ∧
    ∀ a ∈ touchedBytes s.cfg i, t.mem.read a = t'.mem.read a := by
  have upd : ∀ {f : Nat → Byte → Byte} {base len : Nat} {r : BitRange} {v : Word},
      (∀ a ∈ (if validRange r && valueFits r v && inBounds s.cfg base len r then
        (bytesUp r).map (base + ·) else []), s.mem.read a = s'.mem.read a) →
      updateField f base len r v s = .next t → updateField f base len r v s' = .next t' →
      t.resp = t'.resp ∧ t.trace = t'.trace ∧ t.faultLog = t'.faultLog ∧
      ∀ a ∈ (if validRange r && valueFits r v && inBounds s.cfg base len r then
        (bytesUp r).map (base + ·) else []), t.mem.read a = t'.mem.read a := by
    intro f base len r v h h₁ h₂
    unfold updateField withRange at h₁ h₂
    rw [← hc] at h₂
    cases hv : validRange r with
    | false =>
      simp only [hv, Bool.false_eq_true, if_false, raise_eq] at h₁ h₂
      cases h₁; cases h₂; simp [ht, hf]
    | true =>
      cases hx : valueFits r v with
      | false =>
        simp only [hv, hx, Bool.false_eq_true, if_true, if_false, raise_eq] at h₁ h₂
        cases h₁; cases h₂; simp [ht, hf]
      | true =>
        cases hi : inBounds s.cfg base len r with
        | false =>
          simp only [hv, hx, hi, Bool.false_eq_true, if_true, if_false, raise_eq] at h₁ h₂
          cases h₁; cases h₂; simp [ht, hf]
        | true =>
          simp only [hv, hx, hi, if_true, complete_eq, Bool.and_self] at h₁ h₂ h ⊢
          have hfl := firstByte_le_lastByte hv
          have hk : ∀ k ∈ bytesDown r, s.mem.read (base + k) = s'.mem.read (base + k) := fun k hk =>
            h _ (List.mem_map.2 ⟨k, mem_bytesUp.2 ((mem_bytesDown hfl).1 hk), rfl⟩)
          have key := updateBytes_congr f base (nodup_bytesDown r) hw hw' hk ht
          cases h₁; cases h₂
          refine ⟨rfl, key.1, ?_, fun a ha => ?_⟩
          · show (updateBytes f base _ s).faultLog = (updateBytes f base _ s').faultLog
            rw [updateBytes_frame, updateBytes_frame f base _ s']; exact hf
          · obtain ⟨k, hk, rfl⟩ := List.mem_map.1 ha
            exact key.2 k ((mem_bytesDown hfl).2 (mem_bytesUp.1 hk))
  have ok : ∀ {c : WidthClass} {v : Word} {nb ne : Nat}, complete c v nb ne s = .next t →
      complete c v nb ne s' = .next t' → t.resp = t'.resp ∧ t.trace = t'.trace ∧
      t.faultLog = t'.faultLog ∧ ∀ a ∈ ([] : List Nat), t.mem.read a = t'.mem.read a := by
    intro c v nb ne h₁ h₂; cases h₁; cases h₂; exact ⟨rfl, ht, hf, by simp⟩
  have err : ∀ {e : ErrorCode} {l : List Nat}, raise e s = .next t → raise e s' = .next t' →
      l = [] → t.resp = t'.resp ∧ t.trace = t'.trace ∧ t.faultLog = t'.faultLog ∧
      ∀ a ∈ l, t.mem.read a = t'.mem.read a := by
    intro e l h₁ h₂ hl; cases h₁; cases h₂; subst hl
    exact ⟨rfl, ht, congrArg (· ++ [e]) hf, by simp⟩
  cases i with
  | range r =>
    rw [execRange_eq] at ht₁ ht₂
    by_cases hv : validRange r = true
    · rw [if_pos hv] at ht₁ ht₂; exact ok ht₁ ht₂
    · rw [if_neg hv] at ht₁ ht₂; exact err ht₁ ht₂ rfl
  | width r =>
    rw [execWidth_eq] at ht₁ ht₂
    by_cases hv : validRange r = true
    · rw [if_pos hv] at ht₁ ht₂; exact ok ht₁ ht₂
    · rw [if_neg hv] at ht₁ ht₂; exact err ht₁ ht₂ rfl
  | byteof i => exact ok ht₁ ht₂
  | bitoff i => exact ok ht₁ ht₂
  | onebyte r =>
    rw [execOnebyte_eq] at ht₁ ht₂
    by_cases hv : validRange r = true
    · rw [if_pos hv] at ht₁ ht₂; exact ok ht₁ ht₂
    · rw [if_neg hv] at ht₁ ht₂; exact err ht₁ ht₂ rfl
  | norm base r =>
    rw [execNorm_eq] at ht₁ ht₂
    rw [← hc] at ht₂
    by_cases hv : validRange r = true
    · rw [if_pos hv] at ht₁ ht₂
      by_cases ha : addressExists s.cfg (base + r.beginBit / 8) = true
      · rw [if_pos ha] at ht₁ ht₂; exact ok ht₁ ht₂
      · rw [if_neg ha] at ht₁ ht₂; exact err ht₁ ht₂ rfl
    · rw [if_neg hv] at ht₁ ht₂; exact err ht₁ ht₂ rfl
  | read base len r =>
    rw [execRead_eq] at ht₁ ht₂
    rw [← hc] at ht₂
    by_cases hv : validRange r = true
    · rw [if_pos hv] at ht₁ ht₂
      by_cases hi : inBounds s.cfg base len r = true
      · rw [if_pos hi] at ht₁ ht₂
        simp only [touchedBytes, hv, hi, Bool.and_self, if_true] at h ⊢
        have hk : ∀ k ∈ bytesUp r, s.mem.read (base + k) = s'.mem.read (base + k) := fun k hk =>
          h _ (List.mem_map.2 ⟨k, hk, rfl⟩)
        rw [readBytes_eq, field_congr_touched hv hk] at ht₁
        rw [readBytes_eq] at ht₂
        cases ht₁; cases ht₂
        refine ⟨rfl, ?_, hf, h⟩
        refine congrArg₂ _ ht (List.map_congr_left fun k hkk => ?_)
        rw [hk k hkk]
      · rw [if_neg hi] at ht₁ ht₂
        exact err ht₁ ht₂ (by simp [touchedBytes, hi])
    · rw [if_neg hv] at ht₁ ht₂
      exact err ht₁ ht₂ (by simp [touchedBytes, hv])
  | write base len r v => exact upd h ht₁ ht₂
  | merge base len r v => exact upd h ht₁ ht₂

/-- The same of serving a request word. -/
theorem serveRequest_congr (w : Nat) {s s' t t' : State} (hc : s.cfg = s'.cfg) (hw : s.mem.wf)
    (hw' : s'.mem.wf) (hf : s.faultLog = s'.faultLog)
    (h : ∀ a ∈ touchedByWord s.cfg w, s.mem.read a = s'.mem.read a)
    (ht₁ : serveRequest w s = .next t) (ht₂ : serveRequest w s' = .next t') :
    t.resp = t'.resp ∧ t.trace = t'.trace ∧ t.faultLog = t'.faultLog ∧
    ∀ a ∈ touchedByWord s.cfg w, t.mem.read a = t'.mem.read a := by
  cases hd : decode s.cfg w with
  | ok i =>
    have htb : touchedByWord s.cfg w = touchedBytes s.cfg i := by simp only [touchedByWord, hd]
    rw [htb] at h ⊢
    rw [serveRequest_of_decode hd] at ht₁
    rw [serveRequest_of_decode (hc ▸ hd)] at ht₂
    exact exec_congr i (s := s.clearTrace) (s' := s'.clearTrace) hc hw hw' rfl hf h ht₁ ht₂
  | error x =>
    have htb : touchedByWord s.cfg w = [] := by simp only [touchedByWord, hd]
    rw [htb]
    rw [show serveRequest w s = _ from runRequest_of_reserved (s := s.clearTrace) hd] at ht₁
    rw [show serveRequest w s' = _ from
      runRequest_of_reserved (s := s'.clearTrace) (x := x) (hc ▸ hd)] at ht₂
    cases ht₁; cases ht₂
    exact ⟨rfl, rfl, congrArg (· ++ _) hf, by simp⟩

/-! ### Accesses of the host -/

theorem hostAccess_read {s : State} {a : Nat} (h : a < 2 ^ s.cfg.addrW) :
    hostAccess (.read a) s = .next s := by
  simp [hostAccess, hostAddr, addressExists, h]

theorem hostAccess_write {s : State} {a : Nat} (v : Byte) (h : a < 2 ^ s.cfg.addrW) :
    hostAccess (.write a v) s = .next (s.setMem (s.mem.write a v)) := by
  simp [hostAccess, hostAddr, addressExists, h]

theorem hostAccess_outside {s : State} {x : HostAccess} (h : 2 ^ s.cfg.addrW ≤ hostAddr x) :
    hostAccess x s = .fault (.noSuchAddress (hostAddr x)) := by
  simp [hostAccess, addressExists, Nat.not_lt.2 h]

/-- The host's accesses change memory only, and only at bytes that they name and that exist. -/
theorem hostAccesses_cases (xs : List HostAccess) (s : State) :
    (∃ m, hostAccesses xs s = .next (s.setMem m) ∧ (∀ x ∈ xs, hostAddr x < 2 ^ s.cfg.addrW) ∧
      (s.mem.wf → m.wf) ∧ (s.mem.inSpace s.cfg → m.inSpace s.cfg) ∧
      (∀ a, (∀ x ∈ xs, hostAddr x ≠ a) → m.read a = s.mem.read a)) ∨
    (∃ x ∈ xs, 2 ^ s.cfg.addrW ≤ hostAddr x ∧
      hostAccesses xs s = .fault (.noSuchAddress (hostAddr x))) := by
  induction xs generalizing s with
  | nil => exact .inl ⟨s.mem, rfl, by simp, id, id, fun _ _ => rfl⟩
  | cons x xs ih =>
    by_cases hx : hostAddr x < 2 ^ s.cfg.addrW
    · cases x with
      | read a =>
        rw [hostAccesses, hostAccess_read (a := a) hx]
        rcases ih s with ⟨m, h₁, h₂, h₃, h₄, h₅⟩ | ⟨y, hy, h₁, h₂⟩
        · refine .inl ⟨m, h₁, ?_, h₃, h₄, fun b hb => h₅ b fun y hy => hb y (by simp [hy])⟩
          simpa using ⟨hx, h₂⟩
        · exact .inr ⟨y, by simp [hy], h₁, h₂⟩
      | write a v =>
        rw [hostAccesses, hostAccess_write (a := a) v hx]
        rcases ih (s.setMem (s.mem.write a v)) with ⟨m, h₁, h₂, h₃, h₄, h₅⟩ | ⟨y, hy, h₁, h₂⟩
        · refine .inl ⟨m, h₁, ?_, fun h => h₃ (Memory.write_wf h a v),
            fun h => h₄ (Memory.write_inSpace h hx v), fun b hb => ?_⟩
          · simpa using ⟨hx, h₂⟩
          · rw [h₅ b fun y hy => hb y (by simp [hy])]
            exact Memory.read_write_of_ne v (fun h => hb _ (List.mem_cons_self ..) h.symm)
        · exact .inr ⟨y, by simp [hy], h₁, h₂⟩
    · have hx := Nat.not_lt.1 hx
      refine .inr ⟨x, by simp, hx, ?_⟩
      rw [hostAccesses, hostAccess_outside hx]

/-! ### Reset -/

/-- Cutting a request changes memory and the count of free values only. -/
theorem scramble_eq (as : List Nat) (s : State) :
    scramble as s = { s with mem := (scramble as s).mem, draws := s.draws + as.length } := by
  induction as generalizing s with
  | nil => rfl
  | cons a as ih =>
    rw [scramble, ih]
    simp only [State.addDraws, State.setMem, List.length_cons, State.mk.injEq, true_and]
    omega

theorem scramble_wf {as : List Nat} {s : State} (h : s.mem.wf) : (scramble as s).mem.wf := by
  induction as generalizing s with
  | nil => exact h
  | cons a as ih => exact ih (Memory.write_wf h _ _)

theorem scramble_inSpace {as : List Nat} {s : State} {c : Config} (h : s.mem.inSpace c)
    (ha : ∀ a ∈ as, a < 2 ^ c.addrW) : (scramble as s).mem.inSpace c := by
  induction as generalizing s with
  | nil => exact h
  | cons a as ih =>
    exact ih (Memory.write_inSpace h (ha a (by simp)) _) fun b hb => ha b (by simp [hb])

theorem scramble_read {as : List Nat} {a : Nat} (h : a ∉ as) (s : State) :
    (scramble as s).mem.read a = s.mem.read a := by
  induction as generalizing s with
  | nil => rfl
  | cons b as ih =>
    rw [scramble, ih (fun hb => h (by simp [hb]))]
    exact Memory.read_write_of_ne _ (fun he => h (by simp [he]))

end Sys2Proof.Machine
end

