-- ==== Sys2Proof/Laws/SourceAlgorithm.lean ====
section
/-!
SUPPORT. The source's own algorithms (42_read.md R111, R112, 43_write.md R132, R133, R136) by their
parts: a field cut at byte borders, the accumulator over whole bytes, the value consumed byte by
byte, and both algorithms written out over plain indices.
-/

namespace Sys2Proof.Machine

/-! ### Fields cut at byte borders -/

/-- A field of `n + k` bits is its first `n` bits, then its last `k`. -/
theorem fieldFrom_add (m : Memory) (base b n k : Nat) :
    fieldFrom m base b (n + k) = fieldFrom m base b n * 2 ^ k + fieldFrom m base (b + n) k := by
  induction k with
  | zero => simp [fieldFrom]
  | succ k ih =>
    rw [← Nat.add_assoc, fieldFrom, ih, fieldFrom, Nat.pow_succ, Nat.add_assoc b n k]; ring

/-- The first `t` bits of a byte. -/
theorem fieldFrom_prefix (m : Memory) (base f t : Nat) (h : t ≤ 8) :
    fieldFrom m base (8 * f) t = (m.read (base + f)).toNat >>> (8 - t) := by
  refine Nat.eq_of_testBit_eq fun j => ?_
  rw [testBit_fieldFrom, Nat.testBit_shiftRight]
  by_cases hj : j < t
  · simp only [hj, decide_true, Bool.true_and, bitSet]
    rw [show (8 * f + (t - 1 - j)) / 8 = f by omega,
      show 7 - (8 * f + (t - 1 - j)) % 8 = 8 - t + j by omega]
    rfl
  · simp only [hj, decide_false, Bool.false_and]
    exact (BitVec.getLsbD_of_ge _ _ (by omega)).symm

/-- The bits of a byte from a bit on, as R111 masks the head byte. -/
theorem fieldFrom_suffix (m : Memory) (base b : Nat) :
    fieldFrom m base b (8 - b % 8) = (m.read (base + b / 8)).toNat &&& (0xFF >>> (b % 8)) := by
  refine Nat.eq_of_testBit_eq fun j => ?_
  rw [testBit_fieldFrom, Nat.testBit_and, Nat.testBit_shiftRight,
    show (0xFF : Nat) = 2 ^ 8 - 1 from rfl, Nat.testBit_two_pow_sub_one]
  by_cases hj : j < 8 - b % 8
  · simp only [hj, decide_true, Bool.true_and, bitSet]
    rw [show (b + (8 - b % 8 - 1 - j)) / 8 = b / 8 by omega,
      show 7 - (b + (8 - b % 8 - 1 - j)) % 8 = j by omega, decide_eq_true (by omega), Bool.and_true]
    rfl
  · simp only [hj, decide_false, Bool.false_and]
    rw [decide_eq_false (by omega), Bool.and_false]

/-- The accumulator of R111 after `k` whole bytes. -/
theorem accumulateBytes_eq (m : Memory) (base b k : Nat) :
    accumulateBytes m (base + b / 8) (fieldFrom m base b (8 - b % 8)) k =
      fieldFrom m base b (8 - b % 8 + 8 * k) := by
  unfold accumulateBytes
  induction k with
  | zero => rfl
  | succ k ih =>
    rw [List.range_succ, List.foldl_append, ih, Nat.mul_succ, ← Nat.add_assoc,
      fieldFrom_add _ _ _ (8 - b % 8 + 8 * k) 8]
    simp only [List.foldl_cons, List.foldl_nil]
    rw [show b + (8 - b % 8 + 8 * k) = 8 * (b / 8 + k + 1) by omega,
      fieldFrom_prefix _ _ _ _ (by omega),
      show base + b / 8 + (k + 1) = base + (b / 8 + k + 1) by omega, Nat.shiftRight_zero,
      ← Nat.shiftLeft_add_eq_or_of_lt (BitVec.isLt _), Nat.shiftLeft_eq]

/-! ### The algorithms over plain indices -/

theorem sourceRead_eq (m : Memory) (base b e : Nat) :
    sourceRead m base ⟨b, e⟩ =
      if b / 8 = (e - 1) / 8 then
        ((m.read (base + b / 8)).toNat >>> (8 - (e - 8 * (b / 8)))) &&& (2 ^ (e - b) - 1)
      else if (e - 8 * (b / 8)) % 8 = 0 then
        accumulateBytes m (base + b / 8) ((m.read (base + b / 8)).toNat &&& (0xFF >>> (b % 8)))
          ((e - 8 * (b / 8) - 1) / 8)
      else
        (accumulateBytes m (base + b / 8) ((m.read (base + b / 8)).toNat &&& (0xFF >>> (b % 8)))
            ((e - 8 * (b / 8) - 1) / 8 - 1) <<< ((e - 8 * (b / 8)) % 8)) |||
          ((m.read (base + b / 8 + (e - 8 * (b / 8) - 1) / 8)).toNat >>>
            (8 - (e - 8 * (b / 8)) % 8)) := rfl

theorem sourceWrite_eq (mode : WriteMode) (base b e v : Nat) (s : State) :
    sourceWrite mode base ⟨b, e⟩ v s =
      if b / 8 = (e - 1) / 8 then
        rmwByte (base + b / 8)
          (combine mode (BitVec.ofNat 8 ((2 ^ (e - b) - 1) <<< (8 - (e - 8 * (b / 8)))))
            (BitVec.ofNat 8 (v <<< (8 - (e - 8 * (b / 8)))))) s
      else if (e - 8 * (b / 8)) % 8 = 0 then
        writeHead mode (base + b / 8) (b % 8)
          (consumeBytes mode (base + b / 8) ((e - 8 * (b / 8) - 1) / 8) v s).1
          (consumeBytes mode (base + b / 8) ((e - 8 * (b / 8) - 1) / 8) v s).2
      else
        let s₁ := rmwByte (base + b / 8 + (e - 8 * (b / 8) - 1) / 8)
          (combine mode (BitVec.ofNat 8 (0xFF <<< (8 - (e - 8 * (b / 8)) % 8)))
            (BitVec.ofNat 8
              ((v &&& (2 ^ ((e - 8 * (b / 8)) % 8) - 1)) <<< (8 - (e - 8 * (b / 8)) % 8)))) s
        let p := consumeBytes mode (base + b / 8) ((e - 8 * (b / 8) - 1) / 8 - 1)
          (v >>> ((e - 8 * (b / 8)) % 8)) s₁
        writeHead mode (base + b / 8) (b % 8) p.1 p.2 := rfl

/-! ### Bytes written tail to head -/

theorem updateBytes_append (f : Nat → Byte → Byte) (base : Nat) (ks ks' : List Nat) (s : State) :
    updateBytes f base (ks ++ ks') s = updateBytes f base ks' (updateBytes f base ks s) := by
  induction ks generalizing s with
  | nil => rfl
  | cons k ks ih => exact ih _

/-- The highest index of a descending list comes first. -/
theorem range_map_sub_succ (hi c : Nat) :
    (List.range (c + 1)).map (hi - ·) = hi :: (List.range c).map (hi - 1 - ·) := by
  rw [List.range_succ_eq_map, List.map_cons, List.map_map]
  simp only [Nat.sub_zero, List.cons.injEq, true_and]
  refine List.map_congr_left fun j _ => ?_
  simp only [Function.comp]; omega

/-- The whole bytes of R133, each taking the low eight bits of what is left of the value, are the
byte updates of `g` where `g` places those bits. -/
theorem consumeBytes_eq (mode : WriteMode) (base fb : Nat) (g : Nat → Byte → Byte) (k : Nat) :
    ∀ (v : Nat) (s : State), (∀ i, 1 ≤ i → i ≤ k → ∀ old, g (fb + i) old =
      combine mode 0xFF (BitVec.ofNat 8 (v >>> (8 * (k - i)))) old) →
    consumeBytes mode (base + fb) k v s =
      (v >>> (8 * k), updateBytes g base ((List.range k).map (fb + k - ·)) s) := by
  induction k with
  | zero => intro v s _; simp [consumeBytes, updateBytes]
  | succ k ih =>
    intro v s h
    rw [consumeBytes, ih, range_map_sub_succ, updateBytes]
    · rw [← Nat.shiftRight_add, show 8 + 8 * k = 8 * (k + 1) by ring]
      have := h (k + 1) (by omega) (by omega)
      simp only [Nat.sub_self, Nat.mul_zero, Nat.shiftRight_zero] at this
      rw [show g (fb + (k + 1)) = combine mode 0xFF (BitVec.ofNat 8 v) from funext this]
      rw [show base + fb + (k + 1) = base + (fb + (k + 1)) by omega]
      rfl
    · intro i h1 h2 old
      rw [h i h1 (by omega), ← Nat.shiftRight_add, show 8 + 8 * (k - i) = 8 * (k + 1 - i) by omega]

end Sys2Proof.Machine
end

