-- ==== Sys2Proof/Tests/Slice0.lean ====
section
/-!
SUPPORT. The model's own tests. Expected values come from spec/95_test_vectors.md (E1, V1 to V8 and
the programs) or, where a comment says so, by hand from a rule. Then one witness for every
obligation that has hypotheses: values that meet them all, clause by clause, at the borders of the
ranges the clauses speak of.
-/

namespace Sys2Proof.Tests
open Sys2Proof.Machine

/-! ### Helpers -/

/-- The next state of an outcome, if it is one. -/
def nextState : Host.Outcome State Fault Refusal → Option State
  | .next t => some t
  | .fault _ => none
  | .refused _ => none

/-- The response after an outcome. -/
def response (o : Host.Outcome State Fault Refusal) : Option Response := (nextState o).bind State.resp

/-- The `n` bytes from an address on after an outcome. -/
def bytesAfter (o : Host.Outcome State Fault Refusal) (a n : Nat) : List Byte :=
  match nextState o with
  | some t => (List.range n).map fun j => t.mem.read (a + j)
  | none => []

/-- The state after reset with these bytes in the buffer memory from an address on. -/
def withBytes (a : Nat) (bs : List Byte) : State :=
  { State.reset with mem := bs.zipIdx.foldl (fun m x => m.write (a + x.2) x.1) [] }

/-- The buffer of E1: `4A 35 EC 2D` at `0x100`. -/
def e1 : State := withBytes 0x100 [0x4A, 0x35, 0xEC, 0x2D]

/-- Four bytes `FF` at `0x200`, as in V7. -/
def ones : State := withBytes 0x200 [0xFF, 0xFF, 0xFF, 0xFF]

/-- The nine bytes of V6's 64-bit fields, at 0. -/
def nine : State := withBytes 0 [0x01, 0x23, 0x45, 0x67, 0x89, 0xAB, 0xCD, 0xEF, 0xF0]

/-- A state whose host does one thing. -/
def doing (e : HostEvent) (s : State) : State := { s with pending := [e] }

/-- A failed response. -/
def failed (e : ErrorCode) : Option Response := some ⟨.err e, .none, 0, 0, 0⟩

/-! ### WellFormed refuses an ill-formed term of each kind -/

theorem test_wf_begin_too_wide : BitRange.wf Config.specDefault ⟨2 ^ 32, 0⟩ = false := by decide
theorem test_wf_end_too_wide : BitRange.wf Config.specDefault ⟨0, 2 ^ 32⟩ = false := by decide
theorem test_wf_address_too_wide : addrFits Config.specDefault (2 ^ 32) = false := by decide
theorem test_wf_bit_index_too_wide : bitIndexFits Config.specDefault (2 ^ 32) = false := by decide
theorem test_wf_range : (Instr.range ⟨2 ^ 32, 0⟩).wf Config.specDefault = false := by decide
theorem test_wf_width : (Instr.width ⟨0, 2 ^ 32⟩).wf Config.specDefault = false := by decide
theorem test_wf_byteof : (Instr.byteof (2 ^ 32)).wf Config.specDefault = false := by decide
theorem test_wf_bitoff : (Instr.bitoff (2 ^ 32)).wf Config.specDefault = false := by decide
theorem test_wf_onebyte : (Instr.onebyte ⟨2 ^ 32, 1⟩).wf Config.specDefault = false := by decide
theorem test_wf_norm : (Instr.norm (2 ^ 32) ⟨0, 1⟩).wf Config.specDefault = false ∧
    (Instr.norm 0 ⟨0, 2 ^ 32⟩).wf Config.specDefault = false := by decide
theorem test_wf_read : (Instr.read (2 ^ 32) 0 ⟨0, 1⟩).wf Config.specDefault = false ∧
    (Instr.read 0 (2 ^ 32) ⟨0, 1⟩).wf Config.specDefault = false ∧
    (Instr.read 0 0 ⟨2 ^ 32, 1⟩).wf Config.specDefault = false := by decide
theorem test_wf_write : (Instr.write (2 ^ 32) 0 ⟨0, 1⟩ 0).wf Config.specDefault = false ∧
    (Instr.write 0 (2 ^ 32) ⟨0, 1⟩ 0).wf Config.specDefault = false ∧
    (Instr.write 0 0 ⟨0, 2 ^ 32⟩ 0).wf Config.specDefault = false := by decide
theorem test_wf_merge : (Instr.merge (2 ^ 32) 0 ⟨0, 1⟩ 0).wf Config.specDefault = false ∧
    (Instr.merge 0 (2 ^ 32) ⟨0, 1⟩ 0).wf Config.specDefault = false ∧
    (Instr.merge 0 0 ⟨2 ^ 32, 1⟩ 0).wf Config.specDefault = false := by decide
theorem test_wf_response : Response.wf Config.specDefault ⟨.ok, .none, 0, 2 ^ 32, 0⟩ = false ∧
    Response.wf Config.specDefault ⟨.ok, .none, 0, 0, 2 ^ 32⟩ = false ∧
    Response.wf Config.specDefault ⟨.err .range, .none, 1, 0, 0⟩ = false ∧
    Response.wf Config.specDefault ⟨.err .range, .u8, 0, 0, 0⟩ = false := by decide
/-- An empty range is a legal encoding (R63); only the request that takes it fails. -/
theorem test_wf_empty_range_is_legal : (Instr.range ⟨9, 8⟩).wf Config.specDefault = true := by decide

/-! ### Words written out from the encoding -/

/-- Program 3's `RANGE [7, 72)`: op 0x1 in bits 3:0, begin in 99:68, end in 131:100. -/
theorem test_decode_range :
    decodeTableWord 196 0x0000000000000000000000480000000700000000000000001 =
      some (.range ⟨7, 72⟩) := by decide
/-- V1's `WIDTH [10, 19)`, the word the spec prints. -/
theorem test_decode_width :
    decodeTableWord 196 0x0000000000000000000000130000000A00000000000000002 =
      some (.width ⟨10, 19⟩) := by decide
/-- `BYTEOF 17` by hand from R60 to R62: op 0x3, the bit in begin. -/
theorem test_decode_byteof :
    decodeTableWord 100 0x0000001100000000000000003 = some (.byteof 17) := by decide
/-- `BITOFF 17` by hand from R60 to R62: op 0x4, the bit in begin. -/
theorem test_decode_bitoff :
    decodeTableWord 100 0x0000001100000000000000004 = some (.bitoff 17) := by decide
/-- `ONEBYTE [5, 8)` by hand from R60 to R62: op 0x5. -/
theorem test_decode_onebyte :
    decodeTableWord 132 0x000000080000000500000000000000005 = some (.onebyte ⟨5, 8⟩) := by decide
/-- `NORM 0x400, [20, 36)`, Program 3's word. -/
theorem test_decode_norm :
    decodeTableWord 196 0x0000000000000000000000240000001400000000000004006 =
      some (.norm 0x400 ⟨20, 36⟩) := by decide
/-- E1's `READ 0x100, 4, [1, 17)`, the word the spec prints. -/
theorem test_decode_read :
    decodeTableWord 196 0x0000000000000000000000110000000100000004000001008 =
      some (.read 0x100 4 ⟨1, 17⟩) := by decide
/-- Program 3's `WRITE 0x400, 9, [20, 36), 0xBEEF`, the word the spec prints. -/
theorem test_decode_write :
    decodeTableWord 196 0x000000000000BEEF000000240000001400000009000004009 =
      some (.write 0x400 9 ⟨20, 36⟩ 0xBEEF) := by decide
/-- `MERGE 0x200, 4, [8, 20), 0x35E`, the word the spec prints. -/
theorem test_decode_merge :
    decodeTableWord 196 0x000000000000035E00000014000000080000000400000200A =
      some (.merge 0x200 4 ⟨8, 20⟩ 0x35E) := by decide
/-- The reserved values of R63. -/
theorem test_decode_reserved :
    ∀ op ∈ [0x0, 0x7, 0xB, 0xC, 0xD, 0xE, 0xF], decodeTableWord 196 op = none := by decide

/-! ### The step runs the word on the request port -/

/-- `RANGE [1, 17)` as the first request after reset: V2 gives `OK, 16, wclass=U16`. -/
theorem test_fetch_word_runs_first :
    response (step (State.reset.withFetchWord 196 0x0000000000000000000000110000000100000000000000001)) =
      some ⟨.ok, .u16, 16, 0, 0⟩ := by decide
/-- A reserved op answers ERR_OPCODE (R161) and enters the fault log (R168). -/
theorem test_reserved_op_answers_err_opcode :
    (nextState (step (State.reset.withFetchWord 196 0x7))).map
        (fun t => (t.resp, t.faultLog, t.trace)) = some (failed .opcode, [.opcode], []) := by decide

/-! ### One instruction each -/

/-- V2. -/
theorem test_range_widest : response (exec (.range ⟨100, 164⟩) State.reset) =
    some ⟨.ok, .u64, 64, 0, 0⟩ := by decide
theorem test_range_reversed : response (exec (.range ⟨9, 8⟩) State.reset) = failed .range := by decide
/-- V1. -/
theorem test_width_nine : response (exec (.width ⟨10, 19⟩) State.reset) =
    some ⟨.ok, .u16, 16, 0, 0⟩ := by decide
theorem test_width_too_wide : response (exec (.width ⟨10, 75⟩) State.reset) = failed .range := by decide
/-- V3. -/
theorem test_byteof_top : response (exec (.byteof 4294967295) State.reset) =
    some ⟨.ok, .none, 536870911, 0, 0⟩ := by decide
theorem test_bitoff_top : response (exec (.bitoff 4294967295) State.reset) =
    some ⟨.ok, .none, 7, 0, 0⟩ := by decide
/-- V4. -/
theorem test_onebyte_straddle : response (exec (.onebyte ⟨7, 9⟩) State.reset) =
    some ⟨.ok, .u8, 0, 0, 0⟩ := by decide
theorem test_onebyte_aligned : response (exec (.onebyte ⟨8, 16⟩) State.reset) =
    some ⟨.ok, .u8, 1, 0, 0⟩ := by decide
/-- V5. -/
theorem test_norm_largest_end : response (exec (.norm 0x1000 ⟨71, 135⟩) State.reset) =
    some ⟨.ok, .u64, 0x1008, 7, 71⟩ := by decide
theorem test_norm_wraps : response (exec (.norm 0xFFFFFFFF ⟨8, 16⟩) State.reset) =
    failed .bounds := by decide
/-- V6, class (d), nine bytes touched. -/
theorem test_read_nine_bytes : response (exec (.read 0 9 ⟨7, 71⟩) nine) =
    some ⟨.ok, .u64, 0x91A2B3C4D5E6F7F8, 0, 0⟩ := by decide
theorem test_read_past_the_buffer : response (exec (.read 0x100 4 ⟨25, 33⟩) e1) =
    failed .bounds := by decide
/-- V7. -/
theorem test_write_straddle : bytesAfter (exec (.write 0x200 4 ⟨12, 28⟩ 0x1234) ones) 0x200 4 =
    [0xFF, 0xF1, 0x23, 0x4F] := by decide
theorem test_write_overflow : response (exec (.write 0x200 4 ⟨5, 8⟩ 8) ones) =
    failed .overflow := by decide
/-- V8: the value is ORed in. -/
theorem test_merge_ors :
    bytesAfter (exec (.merge 0x200 4 ⟨2, 6⟩ 0x9) (withBytes 0x200 [0xF0, 0x0F, 0x55, 0xAA])) 0x200 4 =
      [0xF4, 0x0F, 0x55, 0xAA] := by decide
/-- By hand from R48: tail to head, the byte whose value stays among them. -/
theorem test_merge_trace : (nextState (exec (.merge 0x100 4 ⟨4, 12⟩ 0x50) e1)).map State.trace =
    some [.read 0x101 0x35, .write 0x101 0x35, .read 0x100 0x4A, .write 0x100 0x4F] := by decide

/-! ### The host's side -/

/-- Writing the value an unlisted byte reads as removes the entry. -/
theorem test_memory_stays_canonical :
    (nextState (step (doing (.store 0x101 0) e1))).map State.mem =
      some [(0x100, 0x4A), (0x102, 0xEC), (0x103, 0x2D)] := by decide
/-- The RESP word of `OK, 16, wclass=U16` by hand from R65: 0 + 3 * 8 + 16 * 64. -/
theorem test_response_word :
    encodeResponse Config.specDefault ⟨.ok, .u16, 16, 0, 0⟩ = 1048 := by decide
/-- Reset leaves the buffer alone (R182). -/
theorem test_reset_keeps_the_buffer :
    (nextState (step (doing .reset e1))).map State.mem = some e1.mem := by decide
/-- The named range and buffer of R69. -/
theorem test_assembler_bindings :
    assemble Config.specDefault ".range VERSION = [0, 4) ; a name\n.buf H = 0x300, 4\nWRITE H, VERSION, 0b0100" =
      some [.write 0x300 4 ⟨0, 4⟩ 4] := by decide

/-- Log 15, the model's choice: a WRITE that answers ERR_OVERFLOW has no span to race on. -/
theorem test_failed_request_has_no_span :
    races Config.specDefault (encode Config.specDefault (.write 0x200 4 ⟨5, 8⟩ 8)) [.write 0x200 0] = false ∧
    races Config.specDefault (encode Config.specDefault (.write 0x200 4 ⟨5, 8⟩ 7)) [.write 0x200 0] = true := by
  decide

/-! ### Witnesses: values that meet the hypotheses of each obligation -/

/-- Widest fields; the widest word. -/
theorem witness_RequestWordLayout :
    (15 < 2 ^ 4 ∧ 4294967295 < 2 ^ Config.specDefault.addrW ∧
      4294967295 < 2 ^ Config.specDefault.bitIndexW) ∧
    2 ^ 196 - 1 < 2 ^ (68 + 2 * Config.specDefault.addrW + 2 * Config.specDefault.bitIndexW) := by
  decide
theorem witness_EncodeThenDecodeGivesTheRequestBack :
    (Instr.merge 4294967295 4294967295 ⟨4294967295, 4294967295⟩ 0xFFFFFFFFFFFFFFFF).wf
      Config.specDefault = true ∧ (Instr.byteof 0).wf ⟨0, 0⟩ = true := by decide
theorem witness_OpcodeSelectsTheOperation :
    (∀ op ∈ [0x1, 0x2, 0x3, 0x4, 0x5, 0x6, 0x8, 0x9, 0xA], bitField op 0 4 = op) ∧
    (∃ i, decode Config.specDefault 0x3 = .ok i ∧ Nat.testBit 0x3 3 = false ∧
      ∃ t, exec i State.reset = .next t) := ⟨by decide, _, rfl, rfl, _, rfl⟩
/-- Two WIDTH words that differ in the unused fields base, len and value. -/
theorem witness_UnusedFieldsAreIgnored :
    let q := unpackRequest Config.specDefault 0x0000000000000000000000130000000A00000000000000002
    let q' := unpackRequest Config.specDefault 0xFFFFFFFFFFFFFFFF000000130000000AFFFFFFFFFFFFFFFF2
    q.op = q'.op ∧ q.beginBit = q'.beginBit ∧ q.endBit = q'.endBit ∧ q.op ∉ [0x6, 0x8, 0x9, 0xA] ∧
      q.base ≠ q'.base ∧ q.value ≠ q'.value := by decide
theorem witness_ReservedOpcodesRaiseErrOpcode :
    bitField 0x0 0 4 ∈ [0x0, 0x7, 0xB, 0xC, 0xD, 0xE, 0xF] ∧
    bitField 0xF 0 4 ∈ [0x0, 0x7, 0xB, 0xC, 0xD, 0xE, 0xF] ∧
    response (serveRequest 0x7 e1) = failed .opcode := by decide
theorem witness_DecodedRequestsAreWellFormed :
    decode ⟨0, 0⟩ 0x1 = .ok (.range ⟨0, 0⟩) ∧
    decode Config.specDefault (2 ^ 196 - 6) =
      .ok (.merge 4294967295 4294967295 ⟨4294967295, 4294967295⟩ 0xFFFFFFFFFFFFFFFF) := ⟨rfl, rfl⟩
theorem witness_ResponseWordLayout :
    Response.wf Config.specDefault ⟨.ok, .u64, 0xFFFFFFFFFFFFFFFF, 4294967295, 4294967295⟩ = true ∧
    Response.wf ⟨0, 0⟩ ⟨.err .bounds, .none, 0, 0, 0⟩ = true ∧
    4 < bitField 5 0 3 ∧ 5 < bitField 48 3 3 := by decide
theorem witness_StepRunsTheDecodedRequest :
    (doing (.request 0x3) e1).pending = [.request 0x3] ∧
    decode e1.cfg 0x3 = .ok (.byteof 0) := ⟨rfl, rfl⟩
/-- A range request that succeeds, one that fails, a BYTEOF, a WRITE and a NORM: the cases of the
width class and of the data fields. -/
theorem witness_EachRequestGetsOneResponse :
    response (step (doing (.request 0x0000000000000000000000110000000100000004000001008) e1)) =
      some ⟨.ok, .u16, 0x946B, 0, 0⟩ ∧
    response (step (doing (.request 0x0000000000000000000000480000000700000000000000001) e1)) =
      failed .range ∧
    response (step (doing (.request 0x0000001100000000000000003) e1)) = some ⟨.ok, .none, 2, 0, 0⟩ ∧
    response (step (doing (.request 0x000000000000BEEF000000240000001400000009000004009) e1)) =
      some ⟨.ok, .u16, 0, 0, 0⟩ ∧
    response (step (doing (.request 0x0000000000000000000000240000001400000000000004006) e1)) =
      some ⟨.ok, .u16, 0x402, 4, 20⟩ := by
  decide
theorem witness_ResolvePicksTheSmallestStorageWidth :
    (1 ≤ 1 ∧ 1 ≤ 64) ∧ (1 ≤ 64 ∧ 64 ≤ 64) ∧ (8 ∈ [1, 8, 16, 32, 64] ∧ 2 ≤ 8) ∧ 64 < 65 - 0 := by decide
/-- The clauses of RANGE, WIDTH and ONEBYTE at their borders: span 1, span 64; span 0 and span 65. -/
theorem witness_RangeReturnsTheSpan :
    (3 < 4 ∧ 4 - 3 ≤ 64) ∧ (100 < 164 ∧ 164 - 100 ≤ 64) ∧ ¬(3 < 3 ∧ 3 - 3 ≤ 64) ∧
      ¬(100 < 165 ∧ 165 - 100 ≤ 64) ∧ bitField 0x1 0 4 = 0x1 := by decide
theorem witness_WidthReturnsTheStorageWidth :
    (3 < 4 ∧ 4 - 3 ≤ 64) ∧ (100 < 164 ∧ 164 - 100 ≤ 64) ∧ ¬(3 < 3 ∧ 3 - 3 ≤ 64) ∧
      ¬(100 < 165 ∧ 165 - 100 ≤ 64) ∧ bitField 0x2 0 4 = 0x2 := by decide
theorem witness_OnebyteTestsForASingleByte :
    (15 < 16 ∧ 16 - 15 ≤ 64) ∧ (0 < 64 ∧ 64 - 0 ≤ 64) ∧ ¬(1 < 0 ∧ 0 - 1 ≤ 64) ∧
      ¬(0 < 65 ∧ 65 - 0 ≤ 64) ∧ bitField 0x5 0 4 = 0x5 := by decide
theorem witness_ByteofReturnsTheByteIndex :
    2 ^ 67 - 1 < 2 ^ 67 ∧ bitField 0x3 0 4 = 0x3 := by decide
theorem witness_BitoffReturnsTheOffsetInTheByte : bitField 0x4 0 4 = 0x4 := by decide
/-- V5's last address that fits and first that wraps; an empty range. -/
theorem witness_NormReturnsTheNormalizedBaseAndRange :
    (8 < 16 ∧ 16 - 8 ≤ 64 ∧ 0xFFFFFFFE + 8 / 8 ≤ 2 ^ State.reset.cfg.addrW - 1 ∧
      0xFFFFFFFE + 8 / 8 < 2 ^ 64) ∧
    (8 < 16 ∧ 16 - 8 ≤ 64 ∧ 2 ^ State.reset.cfg.addrW - 1 < 0xFFFFFFFF + 8 / 8) ∧
    ¬(8 < 8 ∧ 8 - 8 ≤ 64) ∧ bitField 0x6 0 4 = 0x6 := by decide
theorem witness_NormalizedRangesAreSmall : 71 < 135 ∧ 135 - 71 ≤ 64 := by decide
/-- The highest range of V2. -/
theorem witness_HighestBitIsInNoRange :
    let q := unpackRequest Config.specDefault 0x0000000000000000FFFFFFFFFFFFFFFE00000000000000001
    q.beginBit < q.endBit ∧ q.endBit - 1 = 2 ^ 32 - 2 := by decide
/-- READ's clauses at their borders: the last byte of the buffer and of the address space; one byte
past the buffer, one past the space; span 65. -/
theorem witness_ReadReturnsTheField :
    (24 < 32 ∧ 32 - 24 ≤ 64 ∧ (32 - 1) / 8 < 4 ∧ 0xFFFFFFFC + (32 - 1) / 8 ≤ 2 ^ e1.cfg.addrW - 1) ∧
    (25 < 33 ∧ 33 - 25 ≤ 64 ∧ ¬((33 - 1) / 8 < 4 ∧ 0x100 + (33 - 1) / 8 ≤ 2 ^ e1.cfg.addrW - 1)) ∧
    (0 < 16 ∧ 16 - 0 ≤ 64 ∧ ¬((16 - 1) / 8 < 2 ∧ 0xFFFFFFFF + (16 - 1) / 8 ≤ 2 ^ e1.cfg.addrW - 1)) ∧
    ¬(0 < 65 ∧ 65 - 0 ≤ 64) ∧ bitField 0x8 0 4 = 0x8 := by decide
theorem witness_SourceReadAlgorithmComputesTheField : 7 < 71 ∧ 71 - 7 ≤ 64 := by decide
theorem witness_ReadResultFitsTheStorageWidth :
    ∃ t r, exec (.read 0 9 ⟨7, 71⟩) nine = .next t ∧ t.resp = some r ∧ r.status = .ok :=
  ⟨_, _, rfl, rfl, rfl⟩
theorem witness_OneBitReadIsABoolean :
    31 / 8 < 4 ∧ 0xFFFFFFFC + 31 / 8 ≤ 2 ^ e1.cfg.addrW - 1 := by decide
/-- The two bits `[7, 9)` across two bytes and `[6, 8)` in one. -/
theorem witness_EqualBitContentReadsEqual :
    1 ≤ 2 ∧ 2 ≤ 64 ∧ (7 + 2 - 1) / 8 < 4 ∧ 0x100 + (7 + 2 - 1) / 8 ≤ 2 ^ e1.cfg.addrW - 1 ∧
    (0 + 2 - 1) / 8 < 1 ∧ 0x101 + (0 + 2 - 1) / 8 ≤ 2 ^ e1.cfg.addrW - 1 ∧
    ∀ j < 2, bit e1.mem 0x100 (7 + j) = bit e1.mem 0x101 (0 + j) := by decide
/-- WRITE's clauses at their borders, the largest value that fits and the smallest that does not. -/
theorem witness_WriteReplacesExactlyTheField :
    ones.mem.wf ∧
    (5 < 8 ∧ 8 - 5 ≤ 64 ∧ (7#64).toNat < 2 ^ (8 - 5) ∧ (8 - 1) / 8 < 1 ∧
      0xFFFFFFFF + (8 - 1) / 8 ≤ 2 ^ ones.cfg.addrW - 1) ∧
    (0 < 33 ∧ 33 - 0 ≤ 64 ∧ (0#64).toNat < 2 ^ (33 - 0) ∧
      ¬((33 - 1) / 8 < 4 ∧ 0x200 + (33 - 1) / 8 ≤ 2 ^ ones.cfg.addrW - 1)) ∧
    (5 < 8 ∧ 8 - 5 ≤ 64 ∧ 2 ^ (8 - 5) ≤ (8#64).toNat) ∧
    ¬(8 < 8 ∧ 8 - 8 ≤ 64) ∧ bitField 0x9 0 4 = 0x9 := by decide
theorem witness_MergeOrsTheValueIntoTheField :
    ones.mem.wf ∧
    (8 < 72 ∧ 72 - 8 ≤ 64 ∧ (0xFFFFFFFFFFFFFFFF#64).toNat < 2 ^ (72 - 8) ∧ (72 - 1) / 8 < 9 ∧
      0xFFFFFFF7 + (72 - 1) / 8 ≤ 2 ^ ones.cfg.addrW - 1) ∧
    (8 < 16 ∧ 16 - 8 ≤ 64 ∧ (9#64).toNat < 2 ^ (16 - 8) ∧
      ¬((16 - 1) / 8 < 1 ∧ 0x100 + (16 - 1) / 8 ≤ 2 ^ ones.cfg.addrW - 1)) ∧
    (8 < 16 ∧ 16 - 8 ≤ 64 ∧ 2 ^ (16 - 8) ≤ (0x100#64).toNat) ∧
    ¬(9 < 8 ∧ 8 - 9 ≤ 64) ∧ bitField 0xA 0 4 = 0xA := by decide
/-- The first and the last bit of a nine-byte span. -/
theorem witness_PlacementCoversTheRange :
    7 < 71 ∧ 71 - 7 ≤ 64 ∧ 2 ^ 64 - 1 < 2 ^ (71 - 7) ∧ 7 / 8 ≤ 0 ∧ 0 ≤ (71 - 1) / 8 ∧ 7 < 8 ∧
      7 / 8 ≤ 8 ∧ 8 ≤ (71 - 1) / 8 ∧ 6 < 8 := by decide
/-- WRITE and MERGE, and a byte that is covered whole. -/
theorem witness_StoreTraceIsTailToHead :
    ones.mem.wf ∧
    (∃ t r, exec (.write 0x200 4 ⟨4, 20⟩ 0xA5) ones = .next t ∧ t.resp = some r ∧ r.status = .ok) ∧
    (∃ t r, exec (.merge 0x200 4 ⟨4, 20⟩ 0xA5) ones = .next t ∧ t.resp = some r ∧ r.status = .ok) ∧
    4 / 8 ≤ 1 ∧ 1 ≤ (20 - 1) / 8 ∧ coverMask ⟨4, 20⟩ 1 = 0xFF :=
  ⟨by decide, ⟨_, _, rfl, rfl, rfl⟩, ⟨_, _, rfl, rfl, rfl⟩, by decide⟩
/-- A store, a failed store, and a request that touches nothing. -/
theorem witness_RequestsTouchExactlyTheirSpan :
    ones.mem.wf ∧
    (∃ t r, exec (.write 0x200 4 ⟨4, 12⟩ 0xA5) ones = .next t ∧ t.resp = some r ∧ r.status = .ok) ∧
    (∃ t r, exec (.merge 0x200 4 ⟨5, 8⟩ 8) ones = .next t ∧ t.resp = some r ∧ r.status ≠ .ok) ∧
    (∃ t r, exec (.norm 0x200 ⟨4, 12⟩) ones = .next t ∧ t.resp = some r) :=
  ⟨by decide, ⟨_, _, rfl, rfl, rfl⟩, ⟨_, _, rfl, rfl, by decide⟩, ⟨_, _, rfl, rfl⟩⟩
theorem witness_SourceWriteAlgorithmAgrees :
    7 < 71 ∧ 71 - 7 ≤ 64 ∧ (0xFFFFFFFFFFFFFFFF#64).toNat < 2 ^ (71 - 7) ∧ (71 - 1) / 8 < 9 ∧
      0xFFFFFFF7 + (71 - 1) / 8 ≤ 2 ^ ones.cfg.addrW - 1 := by decide
theorem witness_NormalizationChangesNoResult :
    (20 < 36 ∧ 36 - 20 ≤ 64 ∧ 20 / 8 ≤ 2) ∧
    (20 < 36 ∧ 36 - 20 ≤ 64 ∧ 1 < 20 / 8 ∧ (0xFFFF#64).toNat < 2 ^ (36 - 20)) := by decide
/-- A zeroed 12-bit field; `rest` is the buffer without its first two bytes. -/
theorem witness_WriteThenReadRoundTrip :
    let rest := withBytes 0x102 [0xEC, 0x2D]
    rest.mem.wf ∧ 4 < 16 ∧ 16 - 4 ≤ 64 ∧ (16 - 1) / 8 < 4 ∧
      0x100 + (16 - 1) / 8 ≤ 2 ^ rest.cfg.addrW - 1 ∧ (0xFFF#64).toNat < 2 ^ (16 - 4) ∧
      ∀ j < 12, bit rest.mem 0x100 (4 + j) = 0 := by decide
/-- A store that succeeds, a bit before its range and an address below its base; one that fails. -/
theorem witness_WritesLeaveOtherBitsAlone :
    ones.mem.wf ∧ (∃ t, exec (.write 0x200 4 ⟨4, 12⟩ 0xA5) ones = .next t) ∧
    (∃ t, exec (.merge 0x200 4 ⟨30, 34⟩ 1) ones = .next t) ∧ ¬(4 ≤ 3 ∧ 3 < 12) ∧ ¬(4 ≤ 12 ∧ 12 < 12) ∧
    0x1FF < 0x200 := ⟨by decide, ⟨_, rfl⟩, ⟨_, rfl⟩, by decide, by decide, by decide⟩
theorem witness_MergesAdd :
    e1.mem.wf ∧ 4 < 12 ∧ 12 - 4 ≤ 64 ∧ (12 - 1) / 8 < 4 ∧ 0x100 + (12 - 1) / 8 ≤ 2 ^ e1.cfg.addrW - 1 ∧
      (0xA0#64).toNat < 2 ^ (12 - 4) ∧ (0x05#64).toNat < 2 ^ (12 - 4) := by decide
theorem witness_WritingTwiceIsWritingOnce :
    ones.mem.wf ∧ ∃ t, exec (.write 0x200 4 ⟨12, 28⟩ 0x1234) ones = .next t := ⟨by decide, _, rfl⟩
/-- Fields that end where the written one begins, and begin where it ends. -/
theorem witness_ReadAfterWriteOnAnyContent :
    ones.mem.wf ∧ 4 < 12 ∧ 12 - 4 ≤ 64 ∧ (12 - 1) / 8 < 4 ∧
      0x200 + (12 - 1) / 8 ≤ 2 ^ ones.cfg.addrW - 1 ∧ (0xFF#64).toNat < 2 ^ (12 - 4) ∧
      4 ≤ 4 ∧ 12 ≤ 12 := by decide
theorem witness_MergeReadsBackOldOrValue :
    e1.mem.wf ∧ 2 < 6 ∧ 6 - 2 ≤ 64 ∧ (6 - 1) / 8 < 4 ∧ 0x100 + (6 - 1) / 8 ≤ 2 ^ e1.cfg.addrW - 1 ∧
      (0x9#64).toNat < 2 ^ (6 - 2) ∧ e1.mergeTargetZero 0x104 ⟨2, 6⟩ :=
  ⟨by decide, by decide, by decide, by decide, by decide, by decide,
    show field e1.mem 0x104 ⟨2, 6⟩ = 0 by decide⟩
/-- Two neighbouring fields in one byte. -/
theorem witness_WritesOfDisjointFieldsCommute :
    ones.mem.wf ∧ 4 ≤ 4 ∧ ∃ t₁ t₂ u₁ u₂,
      exec (.write 0x200 4 ⟨0, 4⟩ 4) ones = .next t₁ ∧ exec (.merge 0x200 4 ⟨4, 8⟩ 0xA) t₁ = .next u₁ ∧
      exec (.merge 0x200 4 ⟨4, 8⟩ 0xA) ones = .next t₂ ∧ exec (.write 0x200 4 ⟨0, 4⟩ 4) t₂ = .next u₂ :=
  ⟨by decide, by decide, _, _, _, _, rfl, rfl, rfl, rfl⟩
/-- Ranges that share a byte, and neighbours that share none. -/
theorem witness_ConflictIsSharingAByte :
    validRange ⟨0, 4⟩ = true ∧ validRange ⟨4, 68⟩ = true ∧ conflicts ⟨0, 4⟩ ⟨4, 68⟩ = true ∧
    validRange ⟨0, 8⟩ = true ∧ validRange ⟨8, 16⟩ = true ∧ conflicts ⟨0, 8⟩ ⟨8, 16⟩ = false := by decide
theorem witness_ErrorsTouchNothing :
    ∃ t r, serveRequest 0x0000000000000000000000480000000700000000000000001 e1 = .next t ∧
      t.resp = some r ∧ r.status = .err .range := ⟨_, _, rfl, rfl, rfl⟩
/-- V7's priority rows: each error in its place of the order. -/
theorem witness_StatusIsTheFirstErrorInPriorityOrder :
    response (exec (.write 0x100 4 ⟨8, 8⟩ 999) e1) = failed .range ∧
    response (exec (.write 0x100 1 ⟨8, 16⟩ 999) e1) = failed .overflow ∧
    response (exec (.write 0x100 1 ⟨8, 16⟩ 9) e1) = failed .bounds ∧
    response (serveRequest 0xF e1) = failed .opcode := by decide
theorem witness_FaultLogRecordsEachNonzeroStatus :
    (∃ t, step (doing (.request 0x0) e1) = .next t ∧ t.faultLog.length = 1) ∧
    (∃ t, step (doing (.request 0x3) e1) = .next t ∧ t.faultLog.length = 0) :=
  ⟨⟨_, rfl, rfl⟩, ⟨_, rfl, rfl⟩⟩
theorem witness_StepKeepsTheInvariant :
    State.Inv (doing (.store 0x100 0xFF) e1) ∧
    ∃ t, step (doing (.store 0x100 0xFF) e1) = .next t ∧ t ≠ doing (.store 0x100 0xFF) e1 :=
  ⟨⟨by decide, by decide, nofun, nofun, nofun⟩, _, rfl, by decide⟩
theorem witness_ResetLeavesTheBufferAlone : (doing .reset e1).pending = [.reset] := rfl
/-- A cut WRITE, whose span bytes are free, and a cut READ, which writes nothing. -/
theorem witness_ResetCutsARequest :
    e1.mem.wf ∧
    (doing (.resetDuring 0x000000000000BEEF000000240000001400000009000004009) e1).pending =
      [.resetDuring 0x000000000000BEEF000000240000001400000009000004009] ∧
    writtenByWord e1.cfg 0x000000000000BEEF000000240000001400000009000004009 = [0x402, 0x403, 0x404] ∧
    0x405 ∉ touchedByWord e1.cfg 0x000000000000BEEF000000240000001400000009000004009 ∧
    writtenByWord e1.cfg 0x0000000000000000000000110000000100000004000001008 = [] := by decide
theorem witness_OnlyWriteAndMergeChangeMemory :
    ∃ t, serveRequest 0x000000000000BEEF000000240000001400000009000004009 e1 = .next t ∧
      t.mem.read 0x403 ≠ e1.mem.read 0x403 := ⟨_, rfl, by decide⟩
theorem witness_RequestsSeeOnlyTheBuffer :
    e1.cfg = (doing .reset e1).cfg ∧ e1.mem = (doing .reset e1).mem ∧ e1 ≠ doing .reset e1 := by decide
/-- The last address that exists and the first that does not. -/
theorem witness_HostWritesAreSeen :
    e1.mem.wf ∧ (doing (.store 0xFFFFFFFF 1) e1).pending = [.store 0xFFFFFFFF 1] ∧
    0xFFFFFFFF < 2 ^ e1.cfg.addrW ∧ 2 ^ e1.cfg.addrW ≤ 0x100000000 := by decide
/-- Another agent touches the last span byte of a READ. -/
theorem witness_RaceOnTheSpanHasNoMove :
    ∃ x ∈ [HostAccess.write 0x102 7],
      hostAddr x ∈ touchedByWord e1.cfg 0x0000000000000000000000110000000100000004000001008 := by decide
/-- Another agent touches the byte after the span. -/
theorem witness_AccessesOutsideTheSpanDoNotDisturb :
    e1.mem.wf ∧ (∀ x ∈ [HostAccess.write 0x103 7, HostAccess.read 0xFFFFFFFF],
      hostAddr x < 2 ^ e1.cfg.addrW ∧
        hostAddr x ∉ touchedByWord e1.cfg 0x0000000000000000000000110000000100000004000001008) := by
  decide
/-- With and without a response to take. -/
theorem witness_HostTakesTheResponseWord :
    (∃ s : State, s.pending = [.takeResponse] ∧ s.resp = some ⟨.ok, .u16, 16, 0, 0⟩) ∧
    (∃ s : State, s.pending = [.takeResponse] ∧ s.resp = none) :=
  ⟨⟨{ doing .takeResponse e1 with resp := some ⟨.ok, .u16, 16, 0, 0⟩ }, rfl, rfl⟩,
    ⟨doing .takeResponse e1, rfl, rfl⟩⟩
/-- A host that keeps its duties in the event of each kind that has one. -/
theorem witness_MachineRunsWhileTheHostKeepsItsDuties :
    hostDutyKept e1.cfg (.contended 0x0000000000000000000000110000000100000004000001008
      [.write 0x103 7]) ∧ hostDutyKept e1.cfg (.store 0xFFFFFFFF 1) :=
  ⟨show ∀ x ∈ [HostAccess.write 0x103 7], hostAddr x < 2 ^ e1.cfg.addrW ∧
      hostAddr x ∉ touchedByWord e1.cfg 0x0000000000000000000000110000000100000004000001008 by decide,
    show 0xFFFFFFFF < 2 ^ e1.cfg.addrW by decide⟩
/-- Operands at the top of their fields, a bound range and a bound buffer, and an accepted line. -/
theorem witness_BindingsExpandAndEmitNothing :
    let env : AsmEnv := ⟨[(['R'], ⟨4294967294, 4294967295⟩)], [(['H'], (4294967295, 4294967295))]⟩
    bitIndexFits Config.specDefault 4294967295 = true ∧
    expandRange env (.name ['R']) = some ⟨4294967294, 4294967295⟩ ∧
    BitRange.wf Config.specDefault ⟨4294967294, 4294967295⟩ = true ∧
    expandBuf env (.name ['H']) = some (4294967295, 4294967295) ∧
    addrFits Config.specDefault 4294967295 = true ∧
    expandLine Config.specDefault env (.byteof 17) = some (env, [.byteof 17]) ∧
    AsmLine.byteof 17 ≠ .blank := by decide

end Sys2Proof.Tests
end

section
/-!
PROOFS. The invariant of the machine (Safety.lean, State.Inv): the responses the block puts on its
port fit their fields, their words fit the port, and every action of the host keeps the invariant and
the widths.
-/

namespace Sys2Proof.Machine

/-! ### Responses fit their fields -/

theorem errorResponse_wf (c : Config) (e : ErrorCode) : (errorResponse e).wf c = true := by
  simp [Response.wf, errorResponse, bitIndexFits]

/-- A successful response fits its fields when its two indices do. -/
theorem okResponse_wf_iff {c : Config} {k : WidthClass} {v : Word} {nb ne : Nat} :
    Response.wf c ⟨.ok, k, v, nb, ne⟩ = true ↔ nb < 2 ^ c.bitIndexW ∧ ne < 2 ^ c.bitIndexW := by
  simp [Response.wf, bitIndexFits]

/-- The decoder reads each operand whole from its field (30_encoding.md R66), so it fits. -/
theorem decode_wf {c : Config} {w : Nat} {i : Instr} (h : decode c w = .ok i) : i.wf c = true := by
  obtain ⟨_, hbase, hlen, hbegin, hend⟩ := unpackRequest_fits c w
  rcases decode_cases c w with ⟨_, hd⟩ | ⟨_, hd⟩ | ⟨_, hd⟩ | ⟨_, hd⟩ | ⟨_, hd⟩ | ⟨_, hd⟩ | ⟨_, hd⟩ |
      ⟨_, hd⟩ | ⟨_, hd⟩ | ⟨_, hd⟩ <;>
    cases hd.symm.trans h <;>
    simp [Instr.wf, BitRange.wf, addrFits, bitIndexFits, hbase, hlen, hbegin, hend]

/-- Every response to a request whose operands fit their fields fits its own: the indices of NORM are
at most those of its range, and every other request leaves them zero. -/
theorem exec_resp_wf {i : Instr} {s t : State} {r : Response} (hi : i.wf s.cfg = true)
    (h : exec i s = .next t) (hr : t.resp = some r) : r.wf s.cfg = true := by
  have ok : ∀ {k : WidthClass} {v : Word} {nb ne : Nat} {s' : State},
      complete k v nb ne s' = .next t → nb < 2 ^ s.cfg.bitIndexW ∧ ne < 2 ^ s.cfg.bitIndexW →
      r.wf s.cfg = true := by
    intro k v nb ne s' h hn; cases h; cases hr; exact okResponse_wf_iff.2 hn
  have err : ∀ {e : ErrorCode}, raise e s = .next t → r.wf s.cfg = true := by
    intro e h; cases h; cases hr; exact errorResponse_wf _ _
  have zero : 0 < 2 ^ s.cfg.bitIndexW ∧ 0 < 2 ^ s.cfg.bitIndexW := by simp
  have upd : ∀ {f : Nat → Byte → Byte} {base len : Nat} {q : BitRange} {v : Word},
      updateField f base len q v s = .next t → r.wf s.cfg = true := by
    intro f base len q v h
    rcases updateField_cases f base len q v s with
      ⟨_, h'⟩ | ⟨_, _, h'⟩ | ⟨_, _, _, h'⟩ | ⟨_, _, _, h'⟩ <;> rw [h'] at h
    exacts [err h, err h, err h, ok h zero]
  cases i with
  | range q => rw [execRange_eq] at h; split at h; exacts [ok h zero, err h]
  | width q => rw [execWidth_eq] at h; split at h; exacts [ok h zero, err h]
  | byteof bit => exact ok h zero
  | bitoff bit => exact ok h zero
  | onebyte q => rw [execOnebyte_eq] at h; split at h; exacts [ok h zero, err h]
  | norm base q =>
    have hq : q.beginBit < 2 ^ s.cfg.bitIndexW ∧ q.endBit < 2 ^ s.cfg.bitIndexW := by
      simp only [Instr.wf, BitRange.wf, Bool.and_eq_true, decide_eq_true_eq] at hi
      exact hi.2
    rw [execNorm_eq] at h
    split at h
    · split at h
      · exact ok h ⟨by omega, by omega⟩
      · exact err h
    · exact err h
  | read base len q =>
    rw [execRead_eq] at h
    split at h
    · split at h; exacts [ok h zero, err h]
    · exact err h
  | write base len q v => exact upd h
  | merge base len q v => exact upd h

/-- The response to any request word fits its fields (R23). -/
theorem serveRequest_resp_wf {w : Nat} {s t : State} {r : Response}
    (h : serveRequest w s = .next t) (hr : t.resp = some r) : r.wf s.cfg = true := by
  cases hd : decode s.cfg w with
  | ok i =>
    rw [serveRequest_of_decode hd] at h
    exact exec_resp_wf (s := s.clearTrace) (decode_wf hd) h hr
  | error x =>
    cases (runRequest_of_reserved (s := s.clearTrace) hd).symm.trans h
    cases hr
    exact errorResponse_wf _ _

/-! ### Response words -/

theorem statusCode_lt (x : Status) : statusCode x < 2 ^ 3 := by
  cases x with
  | ok => decide
  | err e => cases e <;> decide

theorem wclassCode_lt (k : WidthClass) : wclassCode k < 2 ^ 3 := by
  cases k <;> decide

/-- A response that fits its fields is packed in a word of RESP_W bits (R65). -/
theorem encodeResponse_lt {c : Config} {r : Response} (h : r.wf c = true) :
    encodeResponse c r < 2 ^ c.respW := by
  have hn : r.nbegin < 2 ^ c.bitIndexW ∧ r.nend < 2 ^ c.bitIndexW := by
    simp only [Response.wf, bitIndexFits, Bool.and_eq_true, decide_eq_true_eq] at h
    exact h.1
  have hclass : statusCode r.status + wclassCode r.wclass <<< 3 < 2 ^ 6 :=
    add_shiftLeft_lt (statusCode_lt _) (wclassCode_lt _)
  have hresult := add_shiftLeft_lt (n := 6) hclass r.result.isLt
  have hall := add_shiftLeft_lt (add_shiftLeft_lt hresult hn.1) hn.2
  rwa [show 6 + 64 + c.bitIndexW + c.bitIndexW = c.respW by simp only [Config.respW]; omega] at hall

/-! ### Updates of the state that keep the invariant -/

theorem State.Inv.setPending {s : State} (h : s.Inv) (es : List HostEvent) :
    (s.setPending es).Inv :=
  ⟨h.memCanonical, h.memInSpace, h.respFits, h.receivedFit, h.traceInSpace⟩

theorem State.Inv.setMem {s : State} (h : s.Inv) {m : Memory} (hm : m.wf)
    (hs : m.inSpace s.cfg) : (s.setMem m).Inv :=
  ⟨hm, hs, h.respFits, h.receivedFit, h.traceInSpace⟩

theorem State.Inv.addDraws {s : State} (h : s.Inv) (n : Nat) : (s.addDraws n).Inv :=
  ⟨h.memCanonical, h.memInSpace, h.respFits, h.receivedFit, h.traceInSpace⟩

theorem State.Inv.addReceived {s : State} (h : s.Inv) {w : Nat} (hw : w < 2 ^ s.cfg.respW) :
    (s.addReceived w).Inv := by
  refine ⟨h.memCanonical, h.memInSpace, h.respFits, fun x hx => ?_, h.traceInSpace⟩
  rcases List.mem_append.1 hx with hx | hx
  · exact h.receivedFit x hx
  · exact List.mem_singleton.1 hx ▸ hw

/-! ### Actions of the host that keep the invariant -/

/-- No request changes the words the host has taken. -/
theorem serveRequest_received {w : Nat} {s t : State} (h : serveRequest w s = .next t) :
    t.received = s.received := by
  rcases serveRequest_cases w s with ⟨_, h'⟩ | ⟨_, _, _, _, _, _, h'⟩ <;>
    cases h'.symm.trans h <;> rfl

theorem serveRequest_keeps_inv {w : Nat} {s t : State} (hs : s.Inv)
    (h : serveRequest w s = .next t) : t.Inv ∧ t.cfg = s.cfg := by
  obtain ⟨hcfg, hwf, hspace, -, htrace⟩ := serveRequest_footprint h
  refine ⟨⟨hwf hs.memCanonical, ?_, fun r hr => ?_, ?_, fun x hx => ?_⟩, hcfg⟩ <;> rw [hcfg]
  · exact hspace hs.memInSpace
  · exact serveRequest_resp_wf h hr
  · rw [serveRequest_received h]; exact hs.receivedFit
  · exact touchedByWord_inSpace (htrace x hx)

/-- Accesses of other agents that end in a next state touch bytes that exist, so the request is served
from a state that meets the invariant. -/
theorem serveContended_keeps_inv {w : Nat} {during : List HostAccess} {s t : State} (hs : s.Inv)
    (h : serveContended w during s = .next t) : t.Inv ∧ t.cfg = s.cfg := by
  unfold serveContended at h
  split at h
  · cases h
  · rcases hostAccesses_cases during s with ⟨m, hm, -, hwf, hspace, -⟩ | ⟨x, -, -, hm⟩ <;>
      simp only [hm] at h
    · exact serveRequest_keeps_inv (s := s.setMem m)
        (hs.setMem (hwf hs.memCanonical) (hspace hs.memInSpace)) h
    · cases h

theorem store_keeps_inv {a : Nat} {v : Byte} {s t : State} (hs : s.Inv)
    (h : hostAccess (.write a v) s = .next t) : t.Inv ∧ t.cfg = s.cfg := by
  rcases Nat.lt_or_ge a (2 ^ s.cfg.addrW) with ha | ha
  · cases (hostAccess_write v ha).symm.trans h
    exact ⟨hs.setMem (Memory.write_wf hs.memCanonical a v)
      (Memory.write_inSpace hs.memInSpace ha v), rfl⟩
  · cases (hostAccess_outside (x := .write a v) ha).symm.trans h

theorem takeResponse_keeps_inv {s t : State} (hs : s.Inv) (h : takeResponse s = .next t) :
    t.Inv ∧ t.cfg = s.cfg := by
  unfold takeResponse at h
  split at h
  · cases h
  · next r hr =>
    cases h
    exact ⟨hs.addReceived (encodeResponse_lt (hs.respFits r hr)), rfl⟩

theorem resetBlock_inv {s : State} (hs : s.Inv) : (resetBlock s).Inv :=
  ⟨hs.memCanonical, hs.memInSpace, nofun, hs.receivedFit, nofun⟩

/-- Free values at bytes that exist keep the invariant, whatever they are (R181). -/
theorem scramble_keeps_inv {as : List Nat} {s : State} (hs : s.Inv)
    (ha : ∀ a ∈ as, a < 2 ^ s.cfg.addrW) : (scramble as s).Inv ∧ (scramble as s).cfg = s.cfg := by
  rw [scramble_eq]
  exact ⟨(hs.setMem (scramble_wf hs.memCanonical) (scramble_inSpace hs.memInSpace ha)).addDraws
    as.length, rfl⟩

theorem cutRequest_keeps_inv (w : Nat) {s : State} (hs : s.Inv) :
    (cutRequest w s).Inv ∧ (cutRequest w s).cfg = s.cfg := by
  obtain ⟨hinv, hcfg⟩ := scramble_keeps_inv (as := writtenByWord s.cfg w) hs
    fun a ha => touchedByWord_inSpace (writtenByWord_subset ha)
  exact ⟨resetBlock_inv hinv, hcfg⟩

/-- Every action of the host that ends in a next state keeps the invariant and the widths. -/
theorem serve_keeps_inv {e : HostEvent} {s t : State} (hs : s.Inv) (h : serve e s = .next t) :
    t.Inv ∧ t.cfg = s.cfg := by
  cases e with
  | request w => exact serveRequest_keeps_inv hs h
  | contended w during => exact serveContended_keeps_inv hs h
  | store a v => exact store_keeps_inv hs h
  | takeResponse => exact takeResponse_keeps_inv hs h
  | reset => cases h; exact ⟨resetBlock_inv hs, rfl⟩
  | resetDuring w => cases h; exact cutRequest_keeps_inv w hs

/-- Settles O47: an idle step changes nothing, and every other step is one action of the host. -/
theorem stepKeepsTheInvariant : Obligations.StepKeepsTheInvariant := by
  intro s t hs h
  cases hp : s.pending with
  | nil => cases (step_idle hp).symm.trans h; exact ⟨hs, rfl⟩
  | cons e es =>
    rw [step_serve hp] at h
    exact serve_keeps_inv (s := s.setPending es) (hs.setPending es) h

end Sys2Proof.Machine
end

section
/-!
PROOFS. What every request does in one equation (the first failing check of 60_exceptions.md R165, else
the byte accesses and the successful response), and from it the statements of 10_state.md: the response
record (R23), what the block's memory and responses depend on (R20, R21), and the state after reset
(R31).
-/

namespace Sys2Proof.Machine

/-! ### One equation for every request -/

/-- The first failing check of a WRITE or MERGE, in the order of R165. -/
def updateError (c : Config) (base len : Nat) (r : BitRange) (v : Word) : Option ErrorCode :=
  if validRange r then
    if valueFits r v then
      if inBounds c base len r then none else some .bounds
    else some .overflow
  else some .range

/-- The first failing check of a request, in the order of R165. -/
def firstError (c : Config) : Instr → Option ErrorCode
  | .range r => if validRange r then none else some .range
  | .width r => if validRange r then none else some .range
  | .byteof _ => none
  | .bitoff _ => none
  | .onebyte r => if validRange r then none else some .range
  | .norm base r =>
    if validRange r then
      if addressExists c (base + r.beginBit / 8) then none else some .bounds
    else some .range
  | .read base len r =>
    if validRange r then if inBounds c base len r then none else some .bounds else some .range
  | .write base len r v => updateError c base len r v
  | .merge base len r v => updateError c base len r v

/-- The response to a request that passes its checks (R23). -/
def okResponse (m : Memory) : Instr → Response
  | .range r => ⟨.ok, (resolve (span r)).2, zext64 (span r), 0, 0⟩
  | .width r => ⟨.ok, (resolve (span r)).2, zext64 (resolve (span r)).1, 0, 0⟩
  | .byteof i => ⟨.ok, .none, zext64 (i / 8), 0, 0⟩
  | .bitoff i => ⟨.ok, .none, zext64 (i % 8), 0, 0⟩
  | .onebyte r => ⟨.ok, (resolve (span r)).2, if spansOneByte r then 1 else 0, 0, 0⟩
  | .norm base r => ⟨.ok, (resolve (span r)).2, zext64 (base + r.beginBit / 8), r.beginBit % 8,
      r.endBit - 8 * (r.beginBit / 8)⟩
  | .read base _ r => ⟨.ok, (resolve (span r)).2, zext64 (field m base r), 0, 0⟩
  | .write _ _ r _ => ⟨.ok, (resolve (span r)).2, 0, 0, 0⟩
  | .merge _ _ r _ => ⟨.ok, (resolve (span r)).2, 0, 0, 0⟩

/-- The byte accesses of a request that passes its checks (20_memory.md R46 to R48). -/
def performAccesses : Instr → State → State
  | .read base _ r, s => readBytes base (bytesUp r) s
  | .write base _ r v, s => updateBytes (overwriteByte r v.toNat) base (bytesDown r) s
  | .merge base _ r v, s => updateBytes (mergeByte r v.toNat) base (bytesDown r) s
  | _, s => s

/-- A request that passes its checks: its accesses, then its response. -/
def succeed (i : Instr) (s : State) : State :=
  (performAccesses i s).setResp (some (okResponse s.mem i))

theorem updateField_eq (f : Nat → Byte → Byte) (base len : Nat) (r : BitRange) (v : Word)
    (s : State) :
    updateField f base len r v s = (updateError s.cfg base len r v).elim
      (complete (resolve (span r)).2 0 0 0 (updateBytes f base (bytesDown r) s)) (raise · s) := by
  unfold updateError
  rcases updateField_cases f base len r v s with
    ⟨hv, h⟩ | ⟨hv, hf, h⟩ | ⟨hv, hf, hb, h⟩ | ⟨hv, hf, hb, h⟩ <;> simp [*]

/-- Every request raises its first failing check, or succeeds when there is none. -/
theorem exec_eq (i : Instr) (s : State) :
    exec i s = (firstError s.cfg i).elim (.next (succeed i s)) (raise · s) := by
  cases i with
  | range r => rw [execRange_eq, firstError]; split <;> rfl
  | width r => rw [execWidth_eq, firstError]; split <;> rfl
  | byteof i => rfl
  | bitoff i => rfl
  | onebyte r => rw [execOnebyte_eq, firstError]; split <;> rfl
  | norm base r =>
    rw [execNorm_eq, firstError]
    split
    · split <;> rfl
    · rfl
  | read base len r =>
    rw [execRead_eq, firstError]
    split
    · split <;> rfl
    · rfl
  | write base len r v => exact updateField_eq _ base len r v s
  | merge base len r v => exact updateField_eq _ base len r v s

theorem exec_of_firstError {i : Instr} {s : State} {e : ErrorCode}
    (h : firstError s.cfg i = some e) : exec i s = raise e s := by
  rw [exec_eq, h]; rfl

theorem exec_of_no_error {i : Instr} {s : State} (h : firstError s.cfg i = none) :
    exec i s = .next (succeed i s) := by
  rw [exec_eq, h]; rfl

theorem serveRequest_of_reserved {w : Nat} {s : State} {x : DecodeError}
    (h : decode s.cfg w = .error x) : serveRequest w s = raise .opcode s.clearTrace :=
  runRequest_of_reserved (s := s.clearTrace) h

/-! ### The response record -/

/-- The rows of R23's response table: which data fields a response to the record `q` carries. -/
structure FollowsResponseTable (q : Request) (r : Response) : Prop where
  rangeClass : r.status = .ok ∧ q.op ∈ [0x1, 0x2, 0x5, 0x6, 0x8, 0x9, 0xA] →
    r.wclass = (resolve (q.endBit - q.beginBit)).2
  noClass : ¬(r.status = .ok ∧ q.op ∈ [0x1, 0x2, 0x5, 0x6, 0x8, 0x9, 0xA]) → r.wclass = .none
  noRange : q.op ≠ 0x6 → r.nbegin = 0 ∧ r.nend = 0
  noResult : q.op ∈ [0x9, 0xA] → r.result = 0
  errorData : r.status ≠ .ok → r.result = 0 ∧ r.nbegin = 0 ∧ r.nend = 0

/-- A failed response has zero data fields, whatever was asked (R166). -/
theorem errorResponse_followsResponseTable (q : Request) (e : ErrorCode) :
    FollowsResponseTable q (errorResponse e) := by
  constructor <;> simp [errorResponse]

/-- The successful response to each decoded operation carries the fields of its row. -/
theorem okResponse_followsResponseTable {c : Config} {w : Nat} {i : Instr} (m : Memory)
    (h : decode c w = .ok i) : FollowsResponseTable (unpackRequest c w) (okResponse m i) := by
  have hop : (unpackRequest c w).op = bitField w 0 4 := rfl
  rcases decode_cases c w with ⟨hw, hd⟩ | ⟨hw, hd⟩ | ⟨hw, hd⟩ | ⟨hw, hd⟩ | ⟨hw, hd⟩ | ⟨hw, hd⟩ |
      ⟨hw, hd⟩ | ⟨hw, hd⟩ | ⟨hw, hd⟩ | ⟨_, hd⟩ <;>
    cases hd.symm.trans h <;>
    constructor <;> simp [okResponse, span, hop, hw]

/-- Serving any request word puts one response on the port that follows R23's table. -/
theorem serveRequest_responds (w : Nat) (s : State) :
    ∃ t r, serveRequest w s = .next t ∧ t.resp = some r ∧
      FollowsResponseTable (unpackRequest s.cfg w) r := by
  cases hd : decode s.cfg w with
  | error x =>
    exact ⟨_, _, serveRequest_of_reserved hd, rfl, errorResponse_followsResponseTable _ _⟩
  | ok i =>
    rw [serveRequest_of_decode hd]
    cases he : firstError s.clearTrace.cfg i with
    | some e => exact ⟨_, _, exec_of_firstError he, rfl, errorResponse_followsResponseTable _ _⟩
    | none => exact ⟨_, _, exec_of_no_error he, rfl, okResponse_followsResponseTable _ hd⟩

/-- Serving a request leaves what the host does next alone. -/
theorem serveRequest_pending {w : Nat} {s t : State} (h : serveRequest w s = .next t) :
    t.pending = s.pending := by
  rcases serveRequest_cases w s with ⟨_, h'⟩ | ⟨_, _, _, _, _, _, h'⟩ <;>
    cases h'.symm.trans h <;> rfl

/-- Settles O11: the step serves the word, and its response follows R23's table and fits its
fields. -/
theorem eachRequestGetsOneResponse : Obligations.EachRequestGetsOneResponse := by
  intro s w es hp
  obtain ⟨t, r, ht, hr, htable⟩ := serveRequest_responds w (s.setPending es)
  exact ⟨t, r, (step_serve hp).trans ht, hr, serveRequest_pending ht,
    serveRequest_resp_wf (s := s.setPending es) ht hr, htable.rangeClass, htable.noClass,
    htable.noRange, htable.noResult, htable.errorData⟩

/-! ### What changes the buffer memory -/

/-- The bytes a WRITE or MERGE touches lie in its span (R46). -/
theorem span_of_mem_updated {P : Prop} [Decidable P] {base a b e : Nat}
    (h : a ∈ if P then (bytesUp ⟨b, e⟩).map (base + ·) else []) :
    base + b / 8 ≤ a ∧ a ≤ base + (e - 1) / 8 := by
  split at h
  · obtain ⟨k, hk, rfl⟩ := List.mem_map.1 h
    obtain ⟨hfirst, hlast⟩ := mem_bytesUp.1 hk
    exact ⟨Nat.add_le_add_left hfirst base, Nat.add_le_add_left hlast base⟩
  · simp at h

/-- Only a WRITE or MERGE writes bytes, and only those of its span. -/
theorem decode_of_mem_writtenByWord {c : Config} {w a : Nat} (h : a ∈ writtenByWord c w) :
    ∃ base len b e v, (decode c w = .ok (.write base len ⟨b, e⟩ v) ∨
        decode c w = .ok (.merge base len ⟨b, e⟩ v)) ∧
      base + b / 8 ≤ a ∧ a ≤ base + (e - 1) / 8 := by
  unfold writtenByWord at h
  split at h
  · next i hd =>
    cases i with
    | write base len r v => exact ⟨base, len, r.beginBit, r.endBit, v, .inl hd, span_of_mem_updated h⟩
    | merge base len r v => exact ⟨base, len, r.beginBit, r.endBit, v, .inr hd, span_of_mem_updated h⟩
    | _ => simp [writtenBytes] at h
  · simp at h

/-- Settles O52: a byte that changes is one the word writes. -/
theorem onlyWriteAndMergeChangeMemory : Obligations.OnlyWriteAndMergeChangeMemory := by
  intro s t w a ht hne
  obtain ⟨-, -, -, hframe, -⟩ := serveRequest_footprint ht
  have hmem : a ∈ writtenByWord s.cfg w := by
    by_contra hnot
    exact hne (hframe a hnot)
  exact decode_of_mem_writtenByWord hmem

/-! ### What a request depends on -/

/-- Updating bytes is a function of the memory, whatever its form, and of the trace so far. -/
theorem updateBytes_of_same_buffer (f : Nat → Byte → Byte) (base : Nat) (ks : List Nat)
    {s s' : State} (hm : s.mem = s'.mem) (ht : s.trace = s'.trace) :
    (updateBytes f base ks s).mem = (updateBytes f base ks s').mem ∧
      (updateBytes f base ks s).trace = (updateBytes f base ks s').trace := by
  induction ks generalizing s s' with
  | nil => exact ⟨hm, ht⟩
  | cons k ks ih =>
    rw [updateBytes, updateBytes]
    exact ih (by simp [rmwByte_eq, hm]) (by simp [rmwByte_eq, hm, ht])

theorem performAccesses_of_same_buffer (i : Instr) {s s' : State} (hm : s.mem = s'.mem)
    (ht : s.trace = s'.trace) :
    (performAccesses i s).mem = (performAccesses i s').mem ∧
      (performAccesses i s).trace = (performAccesses i s').trace := by
  cases i with
  | read base len r => simp [performAccesses, readBytes_eq, hm, ht]
  | write base len r v => exact updateBytes_of_same_buffer _ base _ hm ht
  | merge base len r v => exact updateBytes_of_same_buffer _ base _ hm ht
  | _ => exact ⟨hm, ht⟩

/-- Settles O53: the checks depend on the widths alone, the response and the accesses on the buffer
and the emptied trace. -/
theorem requestsSeeOnlyTheBuffer : Obligations.RequestsSeeOnlyTheBuffer := by
  intro s s' w hc hm
  cases hd : decode s.cfg w with
  | error x =>
    exact ⟨_, _, _, serveRequest_of_reserved hd, serveRequest_of_reserved (hc ▸ hd), rfl, rfl, hm,
      rfl⟩
  | ok i =>
    rw [serveRequest_of_decode hd, serveRequest_of_decode (hc ▸ hd)]
    cases he : firstError s.cfg i with
    | some e =>
      exact ⟨_, _, _, exec_of_firstError he, exec_of_firstError (s := s'.clearTrace) (hc ▸ he),
        rfl, rfl, hm, rfl⟩
    | none =>
      have hresp : okResponse s.mem i = okResponse s'.mem i := by rw [hm]
      obtain ⟨hmem, htrace⟩ :=
        performAccesses_of_same_buffer i (s := s.clearTrace) (s' := s'.clearTrace) hm rfl
      exact ⟨_, _, _, exec_of_no_error he, exec_of_no_error (s := s'.clearTrace) (hc ▸ he), rfl,
        congrArg some hresp.symm, hmem, htrace⟩

/-! ### A step on a request, and the state after reset -/

/-- Settles O10: the step serves the word, and serving it runs the decoded request. -/
theorem stepRunsTheDecodedRequest : Obligations.StepRunsTheDecodedRequest := by
  intro s w es i hp hd
  exact (step_serve hp).trans (serveRequest_of_decode (s := s.setPending es) hd)

/-- Settles O48: everything the invariant speaks of is empty after reset. -/
theorem resetStateMeetsTheInvariant : Obligations.ResetStateMeetsTheInvariant where
  memCanonical := ⟨.nil, nofun⟩
  memInSpace := nofun
  respFits := nofun
  receivedFit := nofun
  traceInSpace := nofun

/-- Settles O49: nothing is pending after reset, so the step is idle, and there is no response to
take. -/
theorem resetStateIsIdleWithoutResponse : Obligations.ResetStateIsIdleWithoutResponse :=
  ⟨rfl, rfl, rfl, step_idle rfl, rfl⟩

end Sys2Proof.Machine
end

section
/-!
PROOFS. The buffer memory of 20_memory.md: the bits and whole bytes of a field (R40 to R42), the
bytes a request accesses and in which order (R46, R48), and what the host and other agents do to it
(R50, R51, R188).
-/

namespace Sys2Proof.Machine

/-! ### Bits and whole bytes -/

/-- Settles O22: the mask of R40's shifted byte keeps its one bit. -/
theorem bufferBitsAreNumberedMsbFirst : Obligations.BufferBitsAreNumberedMsbFirst :=
  bit_eq_toNat

theorem fieldFrom_byte (m : Memory) (base f : Nat) :
    fieldFrom m base (8 * f) 8 = (m.read (base + f)).toNat :=
  fieldFrom_prefix m base f 8 le_rfl

/-- One more whole byte shifts the bytes before it up by one digit of base 256. -/
theorem fieldFrom_bytes (m : Memory) (base f k : Nat) :
    fieldFrom m base (8 * f) (8 * k) =
      ∑ j ∈ Finset.range k, (m.read (base + (f + j))).toNat * 256 ^ (k - 1 - j) := by
  induction k with
  | zero => rfl
  | succ k ih =>
    have shift : ∀ j ∈ Finset.range k, (m.read (base + (f + j))).toNat * 256 ^ (k + 1 - 1 - j) =
        (m.read (base + (f + j))).toNat * 256 ^ (k - 1 - j) * 256 := fun j hj => by
      have hj := Finset.mem_range.1 hj
      rw [show k + 1 - 1 - j = (k - 1 - j) + 1 by omega, Nat.pow_succ, ← Nat.mul_assoc]
    rw [Nat.mul_succ, fieldFrom_add, ih, ← Nat.mul_add, fieldFrom_byte, Finset.sum_range_succ,
      Finset.sum_congr rfl shift, Finset.sum_mul]
    simp

/-- Settles O23: the field is the bits of `k` whole bytes. -/
theorem wholeBytesReadBigEndian : Obligations.WholeBytesReadBigEndian := by
  intro m base f k
  have hspan : span ⟨8 * f, 8 * (f + k)⟩ = 8 * k := by simp only [span]; omega
  rw [field_eq_fieldFrom, hspan]
  exact fieldFrom_bytes m base f k

/-! ### The checks, and the answer -/

theorem updateError_eq_none_iff {c : Config} {base len : Nat} {r : BitRange} {v : Word} :
    updateError c base len r v = none ↔
      (validRange r && valueFits r v && inBounds c base len r) = true := by
  unfold updateError
  cases validRange r <;> cases valueFits r v <;> cases inBounds c base len r <;> simp

theorem firstError_read_eq_none_iff {c : Config} {base len : Nat} {r : BitRange} :
    firstError c (.read base len r) = none ↔
      (validRange r && inBounds c base len r) = true := by
  simp only [firstError]
  cases validRange r <;> cases inBounds c base len r <;> simp

/-- What a WRITE or MERGE that passes its checks may rely on. -/
theorem range_and_value_of_updateError {c : Config} {base len : Nat} {r : BitRange} {v : Word}
    (h : updateError c base len r v = none) : validRange r = true ∧ v.toNat < 2 ^ span r := by
  obtain ⟨hvf, -⟩ := Bool.and_eq_true_iff.1 (updateError_eq_none_iff.1 h)
  obtain ⟨hv, hf⟩ := Bool.and_eq_true_iff.1 hvf
  exact ⟨hv, of_decide_eq_true hf⟩

theorem okResponse_status (m : Memory) (i : Instr) : (okResponse m i).status = .ok := by
  cases i <;> rfl

/-- A request answers OK exactly when every check passes. -/
theorem exec_resp_cases {i : Instr} {s t : State} {r : Response} (h : exec i s = .next t)
    (hr : t.resp = some r) :
    (r.status = .ok ∧ firstError s.cfg i = none ∧ t = succeed i s) ∨
    (r.status ≠ .ok ∧ ∃ e, firstError s.cfg i = some e) := by
  cases he : firstError s.cfg i with
  | some e =>
    cases (exec_of_firstError he).symm.trans h
    cases hr
    exact .inr ⟨nofun, e, rfl⟩
  | none =>
    cases (exec_of_no_error he).symm.trans h
    cases hr
    exact .inl ⟨okResponse_status s.mem i, rfl, rfl⟩

theorem exec_of_status_ok {i : Instr} {s t : State} {r : Response} (h : exec i s = .next t)
    (hr : t.resp = some r) (hok : r.status = .ok) :
    firstError s.cfg i = none ∧ t = succeed i s := by
  rcases exec_resp_cases h hr with ⟨-, hsucceed⟩ | ⟨hne, -⟩
  · exact hsucceed
  · exact absurd hok hne

/-! ### The trace of a WRITE or MERGE -/

/-- The trace of an update, in terms of the bytes memory then holds. -/
theorem updateBytes_trace_final (f : Nat → Byte → Byte) (base : Nat) {ks : List Nat}
    (hn : ks.Nodup) {s : State} (hm : s.mem.wf) :
    (updateBytes f base ks s).trace = s.trace ++ ks.flatMap fun k =>
      [.read (base + k) (s.mem.read (base + k)),
        .write (base + k) ((updateBytes f base ks s).mem.read (base + k))] := by
  rw [updateBytes_trace f base hn]
  congr 1
  refine List.flatMap_congr fun k hk => ?_
  rw [updateBytes_read_of_mem f base hm hn hk]

/-- A fully covered byte takes the placed bits whatever it held (R131). -/
theorem overwriteByte_of_full {r : BitRange} {k : Nat} (h : coverMask r k = 0xFF) (v : Nat)
    (old : Byte) : overwriteByte r v k old = placedBits r v k := by
  have hclear : old &&& ~~~(0xFF : Byte) = 0#8 := BitVec.and_zero
  rw [overwriteByte, h, hclear, BitVec.zero_or]

/-- Settles O31: a WRITE or MERGE that answers OK updates its span from the last byte down. -/
theorem storeTraceIsTailToHead : Obligations.StoreTraceIsTailToHead := by
  intro s t base len b e v r hm h hr hok
  refine ⟨?_, fun k hfirst hlast hfull hwrite => ?_⟩
  · have trace : ∀ f, (updateBytes f base (bytesDown ⟨b, e⟩) s).trace = _ := fun f =>
      (updateBytes_trace_final f base (nodup_bytesDown ⟨b, e⟩) hm).trans
        (congrArg (s.trace ++ ·) (List.flatMap_map _ _ _))
    rcases h with h | h <;> obtain ⟨-, rfl⟩ := exec_of_status_ok h hr hok
    · exact trace (overwriteByte ⟨b, e⟩ v.toNat)
    · exact trace (mergeByte ⟨b, e⟩ v.toNat)
  · obtain ⟨hchecks, rfl⟩ := exec_of_status_ok hwrite hr hok
    obtain ⟨hvalid, -⟩ := range_and_value_of_updateError hchecks
    have hk : k ∈ bytesDown ⟨b, e⟩ :=
      (mem_bytesDown (firstByte_le_lastByte hvalid)).2 ⟨hfirst, hlast⟩
    exact (updateBytes_read_of_mem _ base hm (nodup_bytesDown _) hk).trans
      (overwriteByte_of_full hfull _ _)

/-! ### The bytes a request touches -/

/-- A request that fails a check touches no byte (R166). -/
theorem touchedBytes_of_firstError {c : Config} {i : Instr} {e : ErrorCode}
    (h : firstError c i = some e) : touchedBytes c i = [] := by
  have hsome : firstError c i ≠ none := by rw [h]; nofun
  cases i with
  | read base len r => exact if_neg (mt firstError_read_eq_none_iff.2 hsome)
  | write base len r v => exact if_neg (mt updateError_eq_none_iff.2 hsome)
  | merge base len r v => exact if_neg (mt updateError_eq_none_iff.2 hsome)
  | _ => rfl

theorem writtenBytes_subset_touchedBytes {c : Config} {i : Instr} {a : Nat}
    (h : a ∈ writtenBytes c i) : a ∈ touchedBytes c i := by
  cases i with
  | write base len r v => exact h
  | merge base len r v => exact h
  | _ => simp [writtenBytes] at h

/-- The request is a READ, WRITE or MERGE of the range `r` at `base`. -/
def AccessesRange (i : Instr) (base len : Nat) (r : BitRange) (v : Word) : Prop :=
  i = .read base len r ∨ i = .write base len r v ∨ i = .merge base len r v

/-- A READ, WRITE or MERGE that passes its checks touches the bytes `base + fb .. base + lb`
(R46). -/
theorem AccessesRange.mem_touchedBytes_iff {c : Config} {i : Instr} {base len : Nat} {r : BitRange}
    {v : Word} (hi : AccessesRange i base len r v) (h : firstError c i = none) {a : Nat} :
    a ∈ touchedBytes c i ↔ base + firstByte r ≤ a ∧ a ≤ base + lastByte r := by
  have hspan : touchedBytes c i = (bytesUp r).map (base + ·) := by
    rcases hi with rfl | rfl | rfl
    · exact if_pos (firstError_read_eq_none_iff.1 h)
    · exact if_pos (updateError_eq_none_iff.1 h)
    · exact if_pos (updateError_eq_none_iff.1 h)
  simp only [hspan, List.mem_map, mem_bytesUp]
  constructor
  · rintro ⟨k, hk, rfl⟩; omega
  · intro ha; exact ⟨a - base, by omega, by omega⟩

/-- A READ, WRITE or MERGE that passes its checks leaves the bits outside its range alone. -/
theorem AccessesRange.bit_succeed {i : Instr} {base len : Nat} {r : BitRange} {v : Word}
    (hi : AccessesRange i base len r v) {s : State} (hm : s.mem.wf)
    (h : firstError s.cfg i = none) {j : Nat} (hj : ¬(r.beginBit ≤ j ∧ j < r.endBit)) :
    bit (succeed i s).mem base j = bit s.mem base j := by
  rw [bit_eq_iff]
  rcases hi with rfl | rfl | rfl
  · simp [succeed, performAccesses, readBytes_eq]
  · obtain ⟨hvalid, hfits⟩ := range_and_value_of_updateError h
    exact (bitSet_overwrite base hvalid hfits hm j).trans (if_neg hj)
  · obtain ⟨hvalid, hfits⟩ := range_and_value_of_updateError h
    exact (bitSet_merge base hvalid hfits hm j).trans (if_neg hj)

/-! ### The bytes a request accesses -/

/-- The accesses `tr` are at the addresses of `as` and at no other. -/
def AccessesExactly (tr : List Access) (as : List Nat) : Prop :=
  ∀ a, (∃ x ∈ tr, accessAddr x = a) ↔ a ∈ as

theorem accessesExactly_nil : AccessesExactly [] [] := fun a => by simp

theorem AccessesExactly.eq_nil {tr : List Access} (h : AccessesExactly tr []) : tr = [] :=
  List.eq_nil_iff_forall_not_mem.2 fun x hx => List.not_mem_nil ((h _).1 ⟨x, hx, rfl⟩)

/-- Reading bytes accesses each of them and no other. -/
theorem accessesExactly_reads (base : Nat) (ks : List Nat) (m : Memory) :
    AccessesExactly (ks.map fun k => .read (base + k) (m.read (base + k)))
      (ks.map (base + ·)) := by
  intro a
  simp [accessAddr]

/-- One read and one write of each byte accesses each of them and no other. -/
theorem accessesExactly_updates (base : Nat) (ks : List Nat) (old new : Nat → Byte) :
    AccessesExactly (ks.flatMap fun k => [.read (base + k) (old k), .write (base + k) (new k)])
      (ks.map (base + ·)) := by
  intro a
  simp only [List.mem_flatMap, List.mem_cons, List.not_mem_nil, or_false, List.mem_map]
  constructor
  · rintro ⟨x, ⟨k, hk, rfl | rfl⟩, rfl⟩ <;> exact ⟨k, hk, rfl⟩
  · rintro ⟨k, hk, rfl⟩
    exact ⟨.read (base + k) (old k), ⟨k, hk, .inl rfl⟩, rfl⟩

/-- The span is the same set of bytes, whichever end comes first. -/
theorem AccessesExactly.of_bytesDown {tr : List Access} {base : Nat} {r : BitRange}
    (hv : validRange r = true) (h : AccessesExactly tr ((bytesDown r).map (base + ·))) :
    AccessesExactly tr ((bytesUp r).map (base + ·)) := fun a => by
  rw [h a]
  simp only [List.mem_map, mem_bytesDown (firstByte_le_lastByte hv), mem_bytesUp]

/-- A WRITE or MERGE that passes its checks accesses every byte of its span. -/
theorem updateBytes_accesses (f : Nat → Byte → Byte) (base : Nat) {r : BitRange}
    (hv : validRange r = true) (s : State) :
    ∃ tr, (updateBytes f base (bytesDown r) s).trace = s.trace ++ tr ∧
      AccessesExactly tr ((bytesUp r).map (base + ·)) :=
  ⟨_, updateBytes_trace f base (nodup_bytesDown r) s,
    (accessesExactly_updates base (bytesDown r) _ _).of_bytesDown hv⟩

/-- A request that passes its checks accesses every byte it touches and no other (R46). -/
theorem succeed_accesses {i : Instr} {s : State} (h : firstError s.cfg i = none) :
    ∃ tr, (succeed i s).trace = s.trace ++ tr ∧ AccessesExactly tr (touchedBytes s.cfg i) := by
  cases i with
  | read base len r =>
    rw [touchedBytes, if_pos (firstError_read_eq_none_iff.1 h)]
    exact ⟨_, congrArg State.trace (readBytes_eq base (bytesUp r) s),
      accessesExactly_reads base (bytesUp r) s.mem⟩
  | write base len r v =>
    rw [touchedBytes, if_pos (updateError_eq_none_iff.1 h)]
    exact updateBytes_accesses _ base (range_and_value_of_updateError h).1 s
  | merge base len r v =>
    rw [touchedBytes, if_pos (updateError_eq_none_iff.1 h)]
    exact updateBytes_accesses _ base (range_and_value_of_updateError h).1 s
  | _ => exact ⟨[], (List.append_nil _).symm, accessesExactly_nil⟩

/-- Every request accesses exactly the bytes it touches. -/
theorem exec_accesses {i : Instr} {s t : State} (h : exec i s = .next t) :
    ∃ tr, t.trace = s.trace ++ tr ∧ AccessesExactly tr (touchedBytes s.cfg i) := by
  cases he : firstError s.cfg i with
  | some e =>
    cases (exec_of_firstError he).symm.trans h
    rw [touchedBytes_of_firstError he]
    exact ⟨[], (List.append_nil _).symm, accessesExactly_nil⟩
  | none =>
    cases (exec_of_no_error he).symm.trans h
    exact succeed_accesses he

/-- Settles O32: the accesses are at the bytes the request touches, which are its span or none. -/
theorem requestsTouchExactlyTheirSpan : Obligations.RequestsTouchExactlyTheirSpan := by
  intro i s t r hm h hr
  obtain ⟨tr, htrace, haccess⟩ := exec_accesses h
  obtain ⟨-, -, -, hframe, -⟩ := exec_footprint h
  refine ⟨tr, htrace, fun a ha => hframe a fun hwritten => ?_, fun hfail => ?_,
    fun base len b e v hok hi => ?_, fun hread hwrite hmerge => ?_⟩
  · obtain ⟨x, hx, hxa⟩ := (haccess a).2 (writtenBytes_subset_touchedBytes hwritten)
    exact ha x hx hxa
  · rcases exec_resp_cases h hr with ⟨hok, -⟩ | ⟨-, err, herr⟩
    · exact absurd hok hfail
    · rw [touchedBytes_of_firstError herr] at haccess
      exact haccess.eq_nil
  · obtain ⟨hchecks, rfl⟩ := exec_of_status_ok h hr hok
    have hi : AccessesRange i base len ⟨b, e⟩ v := hi
    exact ⟨fun a => (haccess a).trans (hi.mem_touchedBytes_iff hchecks),
      fun j hj => hi.bit_succeed hm hchecks hj⟩
  · cases i with
    | read base len q => exact absurd rfl (hread base len q)
    | write base len q v => exact absurd rfl (hwrite base len q v)
    | merge base len q v => exact absurd rfl (hmerge base len q v)
    | _ => exact haccess.eq_nil

/-! ### The host and other agents -/

/-- Settles O54: the step is the host's access, which ends in a write or in the fault. -/
theorem hostWritesAreSeen : Obligations.HostWritesAreSeen := by
  intro s a v es hm hp
  refine ⟨fun ha => ⟨s.mem.write a v, ?_, fun x => Memory.read_write hm a x v⟩, fun ha => ?_⟩
  · exact (step_serve hp).trans (hostAccess_write (s := s.setPending es) v ha)
  · exact (step_serve hp).trans (hostAccess_outside (s := s.setPending es) (x := .write a v) ha)

theorem races_iff {c : Config} {w : Nat} {during : List HostAccess} :
    races c w during = true ↔ ∃ x ∈ during, hostAddr x ∈ touchedByWord c w := by
  simp [races]

theorem serveContended_of_race {w : Nat} {during : List HostAccess} {s : State}
    (h : ∃ x ∈ during, hostAddr x ∈ touchedByWord s.cfg w) :
    serveContended w during s = .refused .spanRace :=
  if_pos (races_iff.2 h)

/-- Accesses of other agents at existing bytes outside the span change memory there, and the request
is served after them (R51). -/
theorem serveContended_outside_span {w : Nat} {during : List HostAccess} {s : State}
    (h : ∀ x ∈ during, hostAddr x < 2 ^ s.cfg.addrW ∧ hostAddr x ∉ touchedByWord s.cfg w) :
    ∃ m, serveContended w during s = serveRequest w (s.setMem m) ∧ (s.mem.wf → m.wf) ∧
      ∀ a, (∀ x ∈ during, hostAddr x ≠ a) → m.read a = s.mem.read a := by
  have hno : ¬races s.cfg w during = true := fun hrace => by
    obtain ⟨x, hx, htouched⟩ := races_iff.1 hrace
    exact (h x hx).2 htouched
  rcases hostAccesses_cases during s with ⟨m, hm, -, hwf, -, hframe⟩ | ⟨x, hx, hout, -⟩
  · refine ⟨m, ?_, hwf, hframe⟩
    rw [serveContended, if_neg hno, hm]
  · exact absurd (h x hx).1 (Nat.not_lt.2 hout)

/-- Settles O55: the step serves the contended request, which races. -/
theorem raceOnTheSpanHasNoMove : Obligations.RaceOnTheSpanHasNoMove :=
  fun s _ _ es hp hrace => (step_serve hp).trans (serveContended_of_race (s := s.setPending es) hrace)

/-- Settles O56: the request is served from a memory that agrees on its span with the one it would
have found alone. -/
theorem accessesOutsideTheSpanDoNotDisturb :
    Obligations.AccessesOutsideTheSpanDoNotDisturb := by
  intro s w during es hm hp hduty
  obtain ⟨m, hserve, hwf, hframe⟩ := serveContended_outside_span (s := s.setPending es) hduty
  obtain ⟨t, ht⟩ := serveRequest_next w ((s.setPending es).setMem m)
  obtain ⟨u, hu⟩ := serveRequest_next w (s.setPending es)
  have hspan : ∀ a ∈ touchedByWord s.cfg w, m.read a = s.mem.read a := fun a ha =>
    hframe a fun x hx hxa => (hduty x hx).2 (hxa ▸ ha)
  obtain ⟨hresp, htrace, hlog, hbytes⟩ := serveRequest_congr w (s := (s.setPending es).setMem m)
    (s' := s.setPending es) rfl (hwf hm) hm rfl hspan ht hu
  obtain ⟨-, -, -, hkept, -⟩ := serveRequest_footprint ht
  refine ⟨t, u, ((step_serve hp).trans hserve).trans ht, hu, hresp, htrace, hlog,
    serveRequest_pending ht, hbytes, fun a houtside hothers => ?_⟩
  exact (hkept a fun hwritten => houtside (writtenByWord_subset hwritten)).trans
    (hframe a hothers)

end Sys2Proof.Machine
end

section
/-!
PROOFS. The request word of 30_encoding.md: its six fields are packed without loss (R60), so decode
inverts encode (R61, R62, R66); the operation is selected by `op` alone, bit `op[3]` marks the
requests that access the buffer memory (R61), and a field the operation does not use is ignored
(R62).
-/

namespace Sys2Proof

open Machine

/-! ### Packing and unpacking -/

/-- A field that fits its width is read back from the top of a word. -/
theorem bitField_add_shiftLeft_of_fits {x y n width : Nat} (hx : x < 2 ^ n) (hy : y < 2 ^ width) :
    bitField (x + y <<< n) n width = y := by
  rw [bitField_add_shiftLeft hx, Nat.mod_eq_of_lt hy]

/-- Every field of the record fits its field of the request word (R60). -/
structure Request.Fits (c : Config) (q : Request) : Prop where
  op : q.op < 2 ^ 4
  base : q.base < 2 ^ c.addrW
  len : q.len < 2 ^ c.addrW
  beginBit : q.beginBit < 2 ^ c.bitIndexW
  endBit : q.endBit < 2 ^ c.bitIndexW

/-- A record that fits is packed in a word of REQ_W bits, and each field is read back: what lies
below it ends where it begins, and what lies above it does not matter. -/
theorem packRequest_roundtrip {c : Config} {q : Request} (h : q.Fits c) :
    packRequest c q < 2 ^ (68 + 2 * c.addrW + 2 * c.bitIndexW) ∧
      unpackRequest c (packRequest c q) = q := by
  have hbase := add_shiftLeft_lt h.op h.base
  have hlen := add_shiftLeft_lt hbase h.len
  have hbegin := add_shiftLeft_lt hlen h.beginBit
  have hend := add_shiftLeft_lt hbegin h.endBit
  have hvalue := add_shiftLeft_lt hend q.value.isLt
  have hreqW : 68 + 2 * c.addrW + 2 * c.bitIndexW =
      4 + c.addrW + c.addrW + c.bitIndexW + c.bitIndexW + 64 := by omega
  have hop : bitField (packRequest c q) 0 4 = q.op :=
    Laws.EncodedOpcode.bitField_packRequest c q h.op
  refine ⟨?_, ?_⟩
  · rw [hreqW]
    simp only [packRequest, two_mul, ← Nat.add_assoc]
    exact hvalue
  · simp only [unpackRequest, hop]
    simp only [packRequest, two_mul, ← Nat.add_assoc]
    simp (disch := omega) only [bitField_add_shiftLeft_of_le,
      bitField_add_shiftLeft_of_fits h.op h.base, bitField_add_shiftLeft_of_fits hbase h.len,
      bitField_add_shiftLeft_of_fits hlen h.beginBit,
      bitField_add_shiftLeft_of_fits hbegin h.endBit,
      bitField_add_shiftLeft_of_fits hend q.value.isLt, BitVec.ofNat_toNat, BitVec.setWidth_eq]

/-- Each field packed on the ones below it is the word up to the field's end. -/
theorem packRequest_unpackRequest {c : Config} {w : Nat}
    (hw : w < 2 ^ (68 + 2 * c.addrW + 2 * c.bitIndexW)) :
    packRequest c (unpackRequest c w) = w := by
  have hjoin : ∀ a b, bitField w 0 a + bitField w a b <<< a = bitField w 0 (a + b) := fun a b => by
    simpa only [Nat.zero_add] using bitField_add_bitField w 0 a b
  have hvalue : ∀ lo, (BitVec.ofNat 64 (bitField w lo 64)).toNat = bitField w lo 64 := fun lo => by
    rw [BitVec.toNat_ofNat, Nat.mod_eq_of_lt (bitField_lt w lo 64)]
  simp only [packRequest, unpackRequest, hvalue, two_mul, ← Nat.add_assoc, hjoin]
  have hreqW : 4 + c.addrW + c.addrW + c.bitIndexW + c.bitIndexW + 64 =
      68 + 2 * c.addrW + 2 * c.bitIndexW := by omega
  rw [hreqW, bitField, Nat.shiftRight_zero, Nat.mod_eq_of_lt hw]

/-- Settles O1: the sum of R60 is `packRequest` with its shifts as products. -/
theorem requestWordLayout : Obligations.RequestWordLayout := by
  refine ⟨fun c q hop hbase hlen hbegin hend => ⟨?_, ?_⟩, fun c w => packRequest_unpackRequest⟩
  · simp only [packRequest, Nat.shiftLeft_eq]
  · exact packRequest_roundtrip ⟨hop, hbase, hlen, hbegin, hend⟩

/-! ### Encoding and decoding -/

/-- The record of a well-formed request fits, its unused fields being zero (R62). -/
theorem requestOf_fits {c : Config} {i : Instr} (h : i.wf c = true) : (requestOf i).Fits c := by
  cases i <;>
    simp only [Instr.wf, BitRange.wf, addrFits, bitIndexFits, Bool.and_eq_true,
      decide_eq_true_eq] at h <;>
    constructor <;> simp [requestOf, h]

theorem selectRequest_requestOf (i : Instr) : selectRequest (requestOf i) = .ok i := by
  cases i <;> rfl

/-- Settles O2: the word holds the record of the request, and that record selects the request. -/
theorem encodeThenDecodeGivesTheRequestBack : Obligations.EncodeThenDecodeGivesTheRequestBack := by
  intro c i h
  rw [decode, encode, (packRequest_roundtrip (requestOf_fits h)).2, selectRequest_requestOf]

/-- Settles O6: the decoder reads each operand whole from its field. -/
theorem decodedRequestsAreWellFormed : Obligations.DecodedRequestsAreWellFormed :=
  fun _ _ _ => decode_wf

/-! ### The opcode map -/

/-- Decoding looks at the low four bits of the word to select the operation. -/
theorem decode_of_op {c : Config} {w op : Nat} (h : bitField w 0 4 = op) :
    decode c w = selectRequest { unpackRequest c w with op } := by
  subst h; rfl

theorem testBit_three_eq_bitField (w : Nat) : w.testBit 3 = (bitField w 0 4).testBit 3 := by
  rw [bitField, Nat.shiftRight_zero, Nat.testBit_mod_two_pow]
  rfl

/-- The three field-accessor operations (R61). -/
def Instr.IsAccessor (i : Instr) : Prop :=
  (∃ base len r, i = .read base len r) ∨ (∃ base len r v, i = .write base len r v) ∨
    (∃ base len r v, i = .merge base len r v)

/-- Bit `op[3]` marks the field-accessor operations. -/
theorem testBit_three_iff_isAccessor {c : Config} {w : Nat} {i : Instr} (h : decode c w = .ok i) :
    w.testBit 3 = true ↔ i.IsAccessor := by
  rw [testBit_three_eq_bitField]
  rcases decode_cases c w with ⟨hop, hd⟩ | ⟨hop, hd⟩ | ⟨hop, hd⟩ | ⟨hop, hd⟩ | ⟨hop, hd⟩ |
      ⟨hop, hd⟩ | ⟨hop, hd⟩ | ⟨hop, hd⟩ | ⟨hop, hd⟩ | ⟨_, hd⟩ <;>
    cases hd.symm.trans h <;>
    simp [Instr.IsAccessor, hop, Nat.testBit]

/-- A request that is no field-accessor operation changes neither the buffer memory nor the
trace. -/
theorem exec_frame_of_not_isAccessor {i : Instr} (hi : ¬i.IsAccessor) {s t : State}
    (h : exec i s = .next t) : t.mem = s.mem ∧ t.trace = s.trace := by
  have hself : performAccesses i s = s := by
    cases i with
    | read base len r => exact absurd (.inl ⟨base, len, r, rfl⟩) hi
    | write base len r v => exact absurd (.inr (.inl ⟨base, len, r, v, rfl⟩)) hi
    | merge base len r v => exact absurd (.inr (.inr ⟨base, len, r, v, rfl⟩)) hi
    | _ => rfl
  cases he : firstError s.cfg i with
  | some e => cases (exec_of_firstError he).symm.trans h; exact ⟨rfl, rfl⟩
  | none =>
    cases (exec_of_no_error he).symm.trans h
    rw [succeed, hself]
    exact ⟨rfl, rfl⟩

/-- Settles O3: `op` selects the row of R61, and a decoded request without bit 3 is no
field-accessor operation. -/
theorem opcodeSelectsTheOperation : Obligations.OpcodeSelectsTheOperation := by
  intro c w
  refine ⟨decode_of_op, decode_of_op, decode_of_op, decode_of_op, decode_of_op, decode_of_op,
    decode_of_op, decode_of_op, decode_of_op, fun i hd => ⟨testBit_three_iff_isAccessor hd, ?_⟩⟩
  intro s t hbit
  have hi : ¬i.IsAccessor := by rw [← testBit_three_iff_isAccessor hd, hbit]; nofun
  exact exec_frame_of_not_isAccessor hi

/-! ### Unused fields -/

/-- The operation selected depends on `op` and the fields it marks as used alone (R62): in each row
of R61, the fields the row names agree. -/
theorem selectRequest_congr {q q' : Request} (hop : q.op = q'.op)
    (hbase : q.op ∈ [0x6, 0x8, 0x9, 0xA] → q.base = q'.base)
    (hlen : q.op ∈ [0x8, 0x9, 0xA] → q.len = q'.len)
    (hbegin : q.op ∈ [0x1, 0x2, 0x3, 0x4, 0x5, 0x6, 0x8, 0x9, 0xA] → q.beginBit = q'.beginBit)
    (hend : q.op ∈ [0x1, 0x2, 0x5, 0x6, 0x8, 0x9, 0xA] → q.endBit = q'.endBit)
    (hvalue : q.op ∈ [0x9, 0xA] → q.value = q'.value) : selectRequest q = selectRequest q' := by
  simp only [selectRequest, ← hop]
  split <;> simp_all

/-- What serving a word does is what its decoding says. -/
theorem serveRequest_of_decode_eq {s : State} {w w' : Nat}
    (h : decode s.cfg w = decode s.cfg w') : serveRequest w s = serveRequest w' s := by
  cases hd : decode s.cfg w with
  | ok i => rw [serveRequest_of_decode hd, serveRequest_of_decode (h ▸ hd)]
  | error x => rw [serveRequest_of_reserved hd, serveRequest_of_reserved (h ▸ hd)]

/-- Settles O4: words that agree on the fields their `op` uses decode alike. -/
theorem unusedFieldsAreIgnored : Obligations.UnusedFieldsAreIgnored :=
  fun _ _ _ hop hbase hlen hbegin hend hvalue =>
    serveRequest_of_decode_eq (selectRequest_congr hop hbase hlen hbegin hend hvalue)

end Sys2Proof
end

section
/-!
PROOFS. The response word of 30_encoding.md R65: its five fields are packed without loss, and a code
that is never produced (60_exceptions.md R160, R64) is refused.
-/

namespace Sys2Proof.Machine

@[simp] theorem statusOfCode_statusCode (x : Status) : statusOfCode (statusCode x) = some x := by
  cases x with
  | ok => rfl
  | err e => cases e <;> rfl

@[simp] theorem wclassOfCode_wclassCode (k : WidthClass) :
    wclassOfCode (wclassCode k) = some k := by
  cases k <;> rfl

theorem statusOfCode_eq_none {n : Nat} (h : 4 < n) : statusOfCode n = none := by
  obtain ⟨k, rfl⟩ := Nat.exists_eq_add_of_le' h
  rfl

theorem wclassOfCode_eq_none {n : Nat} (h : 5 < n) : wclassOfCode n = none := by
  obtain ⟨k, rfl⟩ := Nat.exists_eq_add_of_le' h
  rfl

/-- A word with a status or a width class never produced is refused. -/
theorem decodeResponse_eq_none {c : Config} {w : Nat}
    (h : 4 < bitField w 0 3 ∨ 5 < bitField w 3 3) : decodeResponse c w = none := by
  unfold decodeResponse
  rcases h with h | h
  · rw [statusOfCode_eq_none h]
  · rw [wclassOfCode_eq_none h]
    cases statusOfCode (bitField w 0 3) <;> rfl

/-- Each field of a response is read back from its word. -/
theorem decodeResponse_encodeResponse {c : Config} {r : Response} (h : r.wf c = true) :
    decodeResponse c (encodeResponse c r) = some r := by
  have hn : r.nbegin < 2 ^ c.bitIndexW ∧ r.nend < 2 ^ c.bitIndexW := by
    simp only [Response.wf, bitIndexFits, Bool.and_eq_true, decide_eq_true_eq] at h
    exact h.1
  have hclass := add_shiftLeft_lt (statusCode_lt r.status) (wclassCode_lt r.wclass)
  have hresult := add_shiftLeft_lt hclass r.result.isLt
  have hnbegin := add_shiftLeft_lt hresult hn.1
  have hstatus : bitField (statusCode r.status) 0 3 = statusCode r.status :=
    Nat.mod_eq_of_lt (statusCode_lt r.status)
  simp (disch := omega) only [decodeResponse, encodeResponse, bitField_add_shiftLeft_of_le, hstatus,
    bitField_add_shiftLeft_of_fits (statusCode_lt _) (wclassCode_lt _),
    bitField_add_shiftLeft_of_fits hclass r.result.isLt,
    bitField_add_shiftLeft_of_fits hresult hn.1,
    bitField_add_shiftLeft_of_fits hnbegin hn.2, statusOfCode_statusCode, wclassOfCode_wclassCode,
    BitVec.ofNat_toNat, BitVec.setWidth_eq]

/-- Settles O8: the sum of R65 is `encodeResponse` with its shifts as products. -/
theorem responseWordLayout : Obligations.ResponseWordLayout := by
  refine fun c => ⟨fun r h => ⟨?_, encodeResponse_lt h, decodeResponse_encodeResponse h⟩,
    fun w => decodeResponse_eq_none⟩
  simp only [encodeResponse, Nat.shiftLeft_eq]

end Sys2Proof.Machine
end

section
/-!
PROOFS. The assembler lines of 30_encoding.md R68 and R69: a binding emits nothing, and every other
line that is not blank emits its one request.
-/

namespace Sys2Proof.Machine

/-- A line that is neither blank nor a binding emits its request, if that is well-formed, and binds
nothing. -/
theorem expandLine_of_not_binding (c : Config) (env : AsmEnv) {l : AsmLine} (hblank : l ≠ .blank)
    (hrange : ∀ n r, l ≠ .rangeDef n r) (hbuf : ∀ n base len, l ≠ .bufDef n base len) :
    expandLine c env l = (expandRequest env l).bind fun i =>
      if i.wf c then some (env, [i]) else none := by
  unfold expandLine
  split
  · exact absurd rfl hblank
  · exact absurd rfl (hrange _ _)
  · exact absurd rfl (hbuf _ _ _)
  · cases expandRequest env l <;> rfl

/-- A line with a well-formed request emits exactly that request. -/
theorem expandLine_of_request {c : Config} {env : AsmEnv} {l : AsmLine} {i : Instr}
    (h : expandRequest env l = some i) (hi : i.wf c = true) :
    expandLine c env l = some (env, [i]) := by
  rw [expandLine_of_not_binding, h]
  · simp [hi]
  · rintro rfl; cases h
  · rintro n r rfl; cases h
  · rintro n base len rfl; cases h

/-- Every number the value port holds is accepted as a value operand (R22). -/
theorem expandValue_toNat (v : Word) : expandValue v.toNat = some v := by
  simp [expandValue, v.isLt]

/-- A line that is neither blank nor a binding emits one well-formed request, if it is accepted. -/
theorem expandLine_emits_one {c : Config} {env env' : AsmEnv} {l : AsmLine} {is : List Instr}
    (hblank : l ≠ .blank) (hrange : ∀ n r, l ≠ .rangeDef n r)
    (hbuf : ∀ n base len, l ≠ .bufDef n base len) (h : expandLine c env l = some (env', is)) :
    env' = env ∧ ∃ i, is = [i] ∧ i.wf c = true := by
  rw [expandLine_of_not_binding c env hblank hrange hbuf, Option.bind_eq_some_iff] at h
  obtain ⟨i, -, h⟩ := h
  split at h
  · next hi => cases h; exact ⟨rfl, i, rfl, hi⟩
  · cases h

/-- The field-accessor lines emit their requests, with the buffer's and the range's pairs put in. -/
theorem expandLine_accessor {c : Config} {env : AsmEnv} {x : RangeRef} {y : BufRef} {r : BitRange}
    {base len : Nat} (hx : expandRange env x = some r) (hy : expandBuf env y = some (base, len))
    (hr : r.wf c = true) (hbase : addrFits c base = true) (hlen : addrFits c len = true) :
    expandLine c env (.read y x) = some (env, [.read base len r]) ∧
      ∀ v : Word, expandLine c env (.write y x v.toNat) = some (env, [.write base len r v]) ∧
        expandLine c env (.merge y x v.toNat) = some (env, [.merge base len r v]) := by
  have hwf : (addrFits c base && addrFits c len && r.wf c) = true := by simp [hbase, hlen, hr]
  refine ⟨expandLine_of_request ?_ hwf,
    fun v => ⟨expandLine_of_request ?_ hwf, expandLine_of_request ?_ hwf⟩⟩ <;>
    simp only [expandRequest, hx, hy, expandValue_toNat]

/-- Settles O59: each mnemonic expands to its request with the pairs put in, which is
well-formed. -/
theorem bindingsExpandAndEmitNothing : Obligations.BindingsExpandAndEmitNothing := by
  intro c env
  refine ⟨fun n r => ⟨_, rfl, List.lookup_cons_self, rfl⟩,
    fun n base len => ⟨_, rfl, List.lookup_cons_self, rfl⟩, fun _ => rfl, fun _ _ => rfl, rfl,
    fun i hi => ⟨expandLine_of_request rfl hi, expandLine_of_request rfl hi⟩,
    fun x r hx hr => ⟨?_, ?_, ?_, fun base hbase => ?_, fun y base len hy => ?_⟩,
    fun l env' is => expandLine_emits_one⟩
  · exact expandLine_of_request (congrArg (Option.map Instr.range) hx) hr
  · exact expandLine_of_request (congrArg (Option.map Instr.width) hx) hr
  · exact expandLine_of_request (congrArg (Option.map Instr.onebyte) hx) hr
  · exact expandLine_of_request (congrArg (Option.map (Instr.norm base)) hx)
      (Bool.and_eq_true_iff.2 ⟨hbase, hr⟩)
  · exact expandLine_accessor hx hy hr

end Sys2Proof.Machine
end

section
/-!
PROOFS. The width resolver of 40_width_resolver.md: the smallest supported width that holds a span
(R80), and the request WIDTH (R81).
-/

namespace Sys2Proof.Machine

/-! ### The resolver -/

/-- The rows of R80's table. -/
theorem resolve_cases (n : Nat) :
    (n = 1 ∧ resolve n = (1, .bool)) ∨
    (n ≠ 1 ∧ n ≤ 8 ∧ resolve n = (8, .u8)) ∨
    (8 < n ∧ n ≤ 16 ∧ resolve n = (16, .u16)) ∨
    (16 < n ∧ n ≤ 32 ∧ resolve n = (32, .u32)) ∨
    (32 < n ∧ resolve n = (64, .u64)) := by
  unfold resolve
  split_ifs with h1 h8 h16 h32
  · exact .inl ⟨h1, rfl⟩
  · exact .inr (.inl ⟨h1, h8, rfl⟩)
  · exact .inr (.inr (.inl ⟨Nat.lt_of_not_le h8, h16, rfl⟩))
  · exact .inr (.inr (.inr (.inl ⟨Nat.lt_of_not_le h16, h32, rfl⟩)))
  · exact .inr (.inr (.inr (.inr ⟨Nat.lt_of_not_le h32, rfl⟩)))

/-- Every resolved width is a supported one, with its own class. -/
theorem resolve_mem_supported (n : Nat) :
    resolve n ∈ [(1, WidthClass.bool), (8, .u8), (16, .u16), (32, .u32), (64, .u64)] := by
  rcases resolve_cases n with ⟨-, h⟩ | ⟨-, -, h⟩ | ⟨-, -, h⟩ | ⟨-, -, h⟩ | ⟨-, h⟩ <;> simp [h]

theorem le_resolve {n : Nat} (h : n ≤ 64) : n ≤ (resolve n).1 := by
  rcases resolve_cases n with ⟨hn, hr⟩ | ⟨-, hn, hr⟩ | ⟨-, hn, hr⟩ | ⟨-, hn, hr⟩ | ⟨-, hr⟩ <;>
    rw [hr]
  exacts [hn.le, hn, hn, hn, h]

/-- The supported width below the resolved one does not hold the span. -/
theorem resolve_le_of_supported {n w : Nat} (hpos : 1 ≤ n) (hw : w ∈ [1, 8, 16, 32, 64])
    (hn : n ≤ w) : (resolve n).1 ≤ w := by
  simp only [List.mem_cons, List.not_mem_nil, or_false] at hw
  rcases resolve_cases n with
    ⟨-, hr⟩ | ⟨hlow, -, hr⟩ | ⟨hlow, -, hr⟩ | ⟨hlow, -, hr⟩ | ⟨hlow, hr⟩ <;>
    rw [hr] <;> omega

/-- A storage width fits the result port. -/
theorem zext64_resolve (n : Nat) : zext64 (resolve n).1 = BitVec.ofNat 64 (resolve n).1 := by
  apply zext64_of_lt
  rcases resolve_cases n with ⟨-, h⟩ | ⟨-, -, h⟩ | ⟨-, -, h⟩ | ⟨-, -, h⟩ | ⟨-, h⟩ <;>
    rw [h] <;> decide

/-! ### WIDTH -/

theorem execWidth_of_valid {r : BitRange} (h : validRange r = true) (s : State) :
    exec (.width r) s =
      complete (resolve (span r)).2 (BitVec.ofNat 64 (resolve (span r)).1) 0 0 s := by
  rw [execWidth_eq, if_pos h, zext64_resolve]

theorem execWidth_of_invalid {r : BitRange} (h : ¬validRange r = true) (s : State) :
    exec (.width r) s = raise .range s := by
  rw [execWidth_eq, if_neg h]

/-- Settles O12: each row of R80's table ends at its width and begins above the one before, and a
span over 64 makes the range invalid. -/
theorem resolvePicksTheSmallestStorageWidth :
    Obligations.ResolvePicksTheSmallestStorageWidth := by
  refine ⟨fun n hpos h64 =>
    ⟨resolve_mem_supported n, le_resolve h64, fun w => resolve_le_of_supported hpos⟩,
    fun s r hspan => execWidth_of_invalid (fun hv => ?_) s⟩
  exact absurd (validRange_iff.1 hv).2 (Nat.not_le.2 hspan)

/-- Settles O13: the checks of WIDTH are the range's validity alone, and no storage width is too
wide for the result port. -/
theorem widthReturnsTheStorageWidth : Obligations.WidthReturnsTheStorageWidth :=
  ⟨fun _ _ => decode_of_op, fun s _ _ =>
    ⟨fun h => execWidth_of_valid (validRange_iff.2 h) s,
      fun h => execWidth_of_invalid (mt validRange_iff.1 h) s⟩⟩

end Sys2Proof.Machine
end

section
/-!
PROOFS. The bit range descriptor of 41_range_descriptor.md: its queries RANGE, BYTEOF, BITOFF, ONEBYTE
and NORM (R92 to R95, R97), which range a request can carry (R91), and the normalized form of a range,
which names the same bits (R96, R98).
-/

namespace Sys2Proof.Machine

/-! ### Ranges a request can carry -/

/-- Settles O20: the end of the range fits its field, and the last bit lies below the end. -/
theorem highestBitIsInNoRange : Obligations.HighestBitIsInNoRange := by
  intro c w q _
  have hend : q.endBit < 2 ^ c.bitIndexW := (unpackRequest_fits c w).2.2.2.2
  omega

/-! ### The queries -/

/-- The span of a valid range fits the result port. -/
theorem zext64_span {r : BitRange} (h : validRange r = true) :
    zext64 (span r) = BitVec.ofNat 64 (span r) :=
  zext64_of_lt (Nat.lt_of_le_of_lt (validRange_iff.1 h).2 (by decide))

theorem execRange_of_valid {r : BitRange} (h : validRange r = true) (s : State) :
    exec (.range r) s = complete (resolve (span r)).2 (BitVec.ofNat 64 (span r)) 0 0 s := by
  rw [execRange_eq, if_pos h, zext64_span h]

/-- Settles O14: the checks of RANGE are the range's validity alone. -/
theorem rangeReturnsTheSpan : Obligations.RangeReturnsTheSpan :=
  ⟨fun _ _ => decode_of_op, fun s _ _ =>
    ⟨fun h => execRange_of_valid (validRange_iff.2 h) s,
      fun h => exec_of_firstError (if_neg (mt validRange_iff.1 h))⟩⟩

/-- Settles O15: BYTEOF checks nothing, and `bit / 8` fits the result port below bit 2^67. -/
theorem byteofReturnsTheByteIndex : Obligations.ByteofReturnsTheByteIndex := by
  refine ⟨fun _ _ => decode_of_op, fun s i => ⟨fun hi => ?_, _, execByteof_eq i s⟩⟩
  have hfits : i / 8 < 2 ^ 64 := by omega
  rw [execByteof_eq, zext64_of_lt hfits, complete_eq]

/-- Settles O16: BITOFF checks nothing, and an offset in a byte is at most 7. -/
theorem bitoffReturnsTheOffsetInTheByte : Obligations.BitoffReturnsTheOffsetInTheByte := by
  refine ⟨fun _ _ => decode_of_op, fun s i => ?_⟩
  have hfits : i % 8 < 2 ^ 64 := by omega
  rw [execBitoff_eq, zext64_of_lt hfits, complete_eq]

theorem execOnebyte_of_valid {r : BitRange} (h : validRange r = true) (s : State) :
    exec (.onebyte r) s =
      complete (resolve (span r)).2 (if firstByte r = lastByte r then 1 else 0) 0 0 s := by
  simp only [execOnebyte_eq, h, if_true, spansOneByte, decide_eq_true_eq]

/-- Settles O17: the test of ONEBYTE compares the first byte index with the last. -/
theorem onebyteTestsForASingleByte : Obligations.OnebyteTestsForASingleByte :=
  ⟨fun _ _ => decode_of_op, fun s _ _ =>
    ⟨fun h => execOnebyte_of_valid (validRange_iff.2 h) s,
      fun h => exec_of_firstError (if_neg (mt validRange_iff.1 h))⟩⟩

theorem addressExists_iff {c : Config} {a : Nat} :
    addressExists c a = true ↔ a ≤ 2 ^ c.addrW - 1 := by
  rw [addressExists, decide_eq_true_eq, le_two_pow_sub_one_iff]

/-- NORM of a valid range whose advanced base exists. -/
theorem execNorm_of_address {base : Nat} {r : BitRange} {s : State} (h : validRange r = true)
    (ha : base + r.beginBit / 8 ≤ 2 ^ s.cfg.addrW - 1) :
    exec (.norm base r) s =
      complete (resolve (span r)).2 (zext64 (base + r.beginBit / 8)) (r.beginBit % 8)
        (r.endBit - 8 * (r.beginBit / 8)) s := by
  rw [execNorm_eq, if_pos h, if_pos (addressExists_iff.2 ha)]

/-- NORM of a valid range whose advanced base would wrap (R164). -/
theorem execNorm_of_wrap {base : Nat} {r : BitRange} {s : State} (h : validRange r = true)
    (ha : 2 ^ s.cfg.addrW - 1 < base + r.beginBit / 8) :
    exec (.norm base r) s = raise .bounds s := by
  rw [execNorm_eq, if_pos h, if_neg (mt addressExists_iff.1 (Nat.not_le.2 ha))]

/-- Settles O18: NORM checks the range, then the advanced base, and the result port holds an address
below 2^64. -/
theorem normReturnsTheNormalizedBaseAndRange :
    Obligations.NormReturnsTheNormalizedBaseAndRange := by
  refine ⟨fun _ _ => decode_of_op, fun s base b e => ⟨?_, ?_, fun h => ?_⟩⟩
  · rintro ⟨hlt, h64, haddr⟩
    have hv : validRange ⟨b, e⟩ = true := validRange_iff.2 ⟨hlt, h64⟩
    have hexec := execNorm_of_address hv haddr
    exact ⟨fun hport => by rw [hexec, zext64_of_lt hport]; rfl, _, hexec⟩
  · rintro ⟨hlt, h64, hwrap⟩
    have hv : validRange ⟨b, e⟩ = true := validRange_iff.2 ⟨hlt, h64⟩
    exact execNorm_of_wrap hv hwrap
  · exact exec_of_firstError (if_neg (mt validRange_iff.1 h))

/-! ### The normalized range

`(normalizeRange base r).2` does not depend on `base`; it is `r` moved down by the whole bytes before
its first one. -/

theorem span_normalizeRange (base : Nat) (r : BitRange) :
    span (normalizeRange base r).2 = span r := by
  simp only [span, normalizeRange]
  omega

theorem validRange_normalizeRange (base : Nat) (r : BitRange) :
    validRange (normalizeRange base r).2 = validRange r := by
  rw [Bool.eq_iff_iff, validRange_iff, validRange_iff]
  simp only [normalizeRange]
  omega

theorem firstByte_normalizeRange (base : Nat) (r : BitRange) :
    firstByte (normalizeRange base r).2 = 0 := by
  simp only [firstByte, byteOf, normalizeRange]
  omega

theorem lastByte_normalizeRange (base : Nat) (r : BitRange) :
    lastByte (normalizeRange base r).2 = lastByte r - firstByte r := by
  simp only [firstByte, lastByte, byteOf, normalizeRange]
  omega

theorem valueFits_normalizeRange (base : Nat) (r : BitRange) (v : Word) :
    valueFits (normalizeRange base r).2 v = valueFits r v := by
  simp only [valueFits, span_normalizeRange]

/-- A valid range spans at most nine bytes (R96). -/
theorem lastByte_sub_firstByte_le {r : BitRange} (h : validRange r = true) :
    lastByte r - firstByte r ≤ 8 := by
  have hr := validRange_iff.1 h
  simp only [firstByte, lastByte, byteOf]
  omega

/-- Settles O19: the normalized range begins in its byte 0, keeps the span and moves the last byte
index down by the first. -/
theorem normalizedRangesAreSmall : Obligations.NormalizedRangesAreSmall := by
  intro base b e hlt h64
  have hv : validRange ⟨b, e⟩ = true := validRange_iff.2 ⟨hlt, h64⟩
  have hspan : e - 8 * (b / 8) - b % 8 = e - b := span_normalizeRange base ⟨b, e⟩
  have hoffset : b % 8 ≤ 7 := by omega
  exact ⟨rfl, hoffset, hspan, by omega, lastByte_normalizeRange base ⟨b, e⟩,
    lastByte_sub_firstByte_le hv⟩

section Normalized

variable {r : BitRange} (hv : validRange r = true)

include hv

theorem lowGap_normalizeRange (base : Nat) : lowGap (normalizeRange base r).2 = lowGap r := by
  have hr := validRange_iff.1 hv
  simp only [lowGap, lastByte, byteOf, normalizeRange]
  omega

/-- Byte `k` of the normalized range is covered as byte `fb + k` of the range. -/
theorem coverMask_normalizeRange (base k : Nat) :
    coverMask (normalizeRange base r).2 k = coverMask r (firstByte r + k) := by
  simp only [coverMask, span_normalizeRange, lowGap_normalizeRange hv, lastByte_normalizeRange,
    Nat.sub_sub]

theorem placedBits_normalizeRange (base v k : Nat) :
    placedBits (normalizeRange base r).2 v k = placedBits r v (firstByte r + k) := by
  simp only [placedBits, lowGap_normalizeRange hv, lastByte_normalizeRange, Nat.sub_sub]

theorem overwriteByte_normalizeRange (base v k : Nat) :
    overwriteByte (normalizeRange base r).2 v k = overwriteByte r v (firstByte r + k) := by
  funext old
  simp only [overwriteByte, coverMask_normalizeRange hv, placedBits_normalizeRange hv]

theorem mergeByte_normalizeRange (base v k : Nat) :
    mergeByte (normalizeRange base r).2 v k = mergeByte r v (firstByte r + k) := by
  funext old
  simp only [mergeByte, placedBits_normalizeRange hv]

/-- The two forms are in bounds together (R98). -/
theorem inBounds_normalizeRange (c : Config) (base len : Nat) :
    inBounds c (normalizeRange base r).1 (len - firstByte r) (normalizeRange base r).2 =
      inBounds c base len r := by
  have hle := firstByte_le_lastByte hv
  have haddr : (normalizeRange base r).1 + (lastByte r - firstByte r) = base + lastByte r := by
    show base + firstByte r + (lastByte r - firstByte r) = base + lastByte r
    omega
  have hlen : lastByte r - firstByte r < len - firstByte r ↔ lastByte r < len := by omega
  simp only [inBounds, lastByte_normalizeRange, haddr, hlen]

theorem bytesUp_eq_map_normalizeRange (base : Nat) :
    bytesUp r = (bytesUp (normalizeRange base r).2).map (firstByte r + ·) := by
  have hle := firstByte_le_lastByte hv
  simp only [bytesUp, firstByte_normalizeRange, lastByte_normalizeRange, List.map_map,
    show lastByte r - firstByte r + 1 - 0 = lastByte r + 1 - firstByte r by omega]
  exact List.map_congr_left fun j _ => by simp

theorem bytesDown_eq_map_normalizeRange (base : Nat) :
    bytesDown r = (bytesDown (normalizeRange base r).2).map (firstByte r + ·) := by
  have hle := firstByte_le_lastByte hv
  simp only [bytesDown, firstByte_normalizeRange, lastByte_normalizeRange, List.map_map,
    show lastByte r - firstByte r + 1 - 0 = lastByte r + 1 - firstByte r by omega]
  refine List.map_congr_left fun j hj => ?_
  have hj := List.mem_range.1 hj
  simp only [Function.comp]
  omega

end Normalized

/-- Bit `i` from a base advanced by `k` bytes is bit `8 * k + i` (R98). -/
theorem bitSet_add_base (m : Memory) (base k i : Nat) :
    bitSet m (base + k) i = bitSet m base (8 * k + i) := by
  rw [bitSet, bitSet, show base + (8 * k + i) / 8 = base + k + i / 8 by omega,
    show (8 * k + i) % 8 = i % 8 by omega]

/-- The two forms name the same bits, so they have one value. -/
theorem field_normalizeRange (m : Memory) (base : Nat) (r : BitRange) :
    field m (normalizeRange base r).1 (normalizeRange base r).2 = field m base r := by
  refine field_congr (span_normalizeRange base r) fun j _ => ?_
  simp only [normalizeRange]
  rw [bitSet_add_base]
  congr 1
  omega

/-! ### Accesses from an advanced base -/

theorem readBytes_add_base (base d : Nat) (ks : List Nat) (s : State) :
    readBytes (base + d) ks s = readBytes base (ks.map (d + ·)) s := by
  induction ks generalizing s with
  | nil => rfl
  | cons k ks ih => rw [List.map_cons, readBytes, readBytes, ih, Nat.add_assoc]

/-- An update sees each index from the base it is given. -/
theorem updateBytes_add_base {f g : Nat → Byte → Byte} {d : Nat} (h : ∀ k, g k = f (d + k))
    (base : Nat) (ks : List Nat) (s : State) :
    updateBytes g (base + d) ks s = updateBytes f base (ks.map (d + ·)) s := by
  induction ks generalizing s with
  | nil => rfl
  | cons k ks ih => rw [List.map_cons, updateBytes, updateBytes, ih, h, Nat.add_assoc]

/-! ### The accessor requests on the normalized form -/

theorem execRead_normalizeRange {r : BitRange} (hv : validRange r = true) (base len : Nat)
    (s : State) :
    exec (.read (normalizeRange base r).1 (len - firstByte r) (normalizeRange base r).2) s =
      exec (.read base len r) s := by
  have hreads : readBytes (normalizeRange base r).1 (bytesUp (normalizeRange base r).2) s =
      readBytes base (bytesUp r) s := by
    rw [bytesUp_eq_map_normalizeRange hv base]
    exact readBytes_add_base base (firstByte r) _ s
  simp only [execRead_eq, validRange_normalizeRange, inBounds_normalizeRange hv,
    span_normalizeRange, field_normalizeRange, hreads]

theorem updateError_normalizeRange {r : BitRange} (hv : validRange r = true) (c : Config)
    (base len : Nat) (v : Word) :
    updateError c (normalizeRange base r).1 (len - firstByte r) (normalizeRange base r).2 v =
      updateError c base len r v := by
  simp only [updateError, validRange_normalizeRange, valueFits_normalizeRange,
    inBounds_normalizeRange hv]

/-- The shared body of WRITE and MERGE on the two forms, where `g` does to byte `k` of the normalized
range what `f` does to byte `fb + k` of the range. -/
theorem updateField_normalizeRange {r : BitRange} (hv : validRange r = true)
    {f g : Nat → Byte → Byte} (h : ∀ k, g k = f (firstByte r + k)) (base len : Nat) (v : Word)
    (s : State) :
    updateField g (normalizeRange base r).1 (len - firstByte r) (normalizeRange base r).2 v s =
      updateField f base len r v s := by
  have hupdates : updateBytes g (normalizeRange base r).1 (bytesDown (normalizeRange base r).2) s =
      updateBytes f base (bytesDown r) s := by
    rw [bytesDown_eq_map_normalizeRange hv base]
    exact updateBytes_add_base h base _ s
  rw [updateField_eq, updateField_eq, updateError_normalizeRange hv, span_normalizeRange, hupdates]

/-- A buffer that ends before the first byte of the range does not hold it. -/
theorem inBounds_of_len_le_firstByte {r : BitRange} (hv : validRange r = true) {len : Nat}
    (h : len ≤ firstByte r) (c : Config) (base : Nat) : inBounds c base len r = false := by
  have hle := firstByte_le_lastByte hv
  have hno : ¬lastByte r < len := by omega
  simp only [inBounds, hno, decide_false, Bool.false_and]

/-- Settles O34: every check, byte access and data field of the normalized request is that of the
request itself, and a buffer shorter than `begin / 8` fails the bounds check. -/
theorem normalizationChangesNoResult : Obligations.NormalizationChangesNoResult := by
  intro s base len b e v hlt h64
  have hv : validRange ⟨b, e⟩ = true := validRange_iff.2 ⟨hlt, h64⟩
  refine ⟨fun _ => ⟨?_, ?_, ?_⟩, fun hlen => ?_⟩
  · exact (execRead_normalizeRange hv base len s).symm
  · exact (updateField_normalizeRange hv (overwriteByte_normalizeRange hv base v.toNat)
      base len v s).symm
  · exact (updateField_normalizeRange hv (mergeByte_normalizeRange hv base v.toNat)
      base len v s).symm
  · have hout := inBounds_of_len_le_firstByte hv (Nat.le_of_lt hlen) s.cfg base
    refine ⟨exec_of_firstError (by simp [firstError, hv, hout]), fun hfits i hi => ?_⟩
    have hfits : valueFits ⟨b, e⟩ v = true := valueFits_iff.2 hfits
    have herror : updateError s.cfg base len ⟨b, e⟩ v = some .bounds := by
      simp [updateError, hv, hfits, hout]
    simp only [List.mem_cons, List.not_mem_nil, or_false] at hi
    rcases hi with rfl | rfl <;> exact exec_of_firstError herror

end Sys2Proof.Machine
end

section
/-!
PROOFS. READ (42_read.md): the value it returns, whole and for one bit (R110, R114), the storage width
that value fits (R115), and the source's own read, which computes the same value (R111 to R113).
-/

namespace Sys2Proof.Machine

/-! ### The source's read algorithm -/

/-- Masking a field with its low `k` ones leaves its last `k` bits. -/
theorem fieldFrom_and_mask (m : Memory) (base b n k : Nat) :
    fieldFrom m base b (n + k) &&& (2 ^ k - 1) = fieldFrom m base (b + n) k := by
  rw [Nat.and_two_pow_sub_one_eq_mod, fieldFrom_add, Nat.mul_add_mod_self_right,
    Nat.mod_eq_of_lt (fieldFrom_lt m base (b + n) k)]

/-- Shifting a field left by `k` and ORing the `k` bits after it in continues the field. -/
theorem fieldFrom_shiftLeft_or (m : Memory) (base b n k : Nat) :
    fieldFrom m base b n <<< k ||| fieldFrom m base (b + n) k = fieldFrom m base b (n + k) := by
  rw [← Nat.shiftLeft_add_eq_or_of_lt (fieldFrom_lt m base (b + n) k), Nat.shiftLeft_eq,
    fieldFrom_add]

/-- The single-byte read of R111: the byte up to the range's end, masked to the range. -/
theorem fieldFrom_in_one_byte (m : Memory) (base : Nat) {b e : Nat} (hlt : b < e)
    (hone : b / 8 = (e - 1) / 8) :
    (m.read (base + b / 8)).toNat >>> (8 - (e - 8 * (b / 8))) &&& (2 ^ (e - b) - 1) =
      fieldFrom m base b (e - b) := by
  have hcut : e - 8 * (b / 8) = b % 8 + (e - b) := by omega
  have hbegin : 8 * (b / 8) + b % 8 = b := Nat.div_add_mod b 8
  rw [← fieldFrom_prefix m base (b / 8) _ (by omega), hcut, fieldFrom_and_mask, hbegin]

/-- Settles O24: in one byte the masked shift of R111 is the field; over several, the accumulator
holds the field up to a byte border, and the `t` tail bits of R112 continue it. -/
theorem sourceReadAlgorithmComputesTheField :
    Obligations.SourceReadAlgorithmComputesTheField := by
  intro m base b e hlt _
  have hfield : field m base ⟨b, e⟩ = fieldFrom m base b (e - b) := field_eq_fieldFrom m base ⟨b, e⟩
  rw [sourceRead_eq, hfield]
  split_ifs with hone htail
  · exact fieldFrom_in_one_byte m base hlt hone
  · rw [← fieldFrom_suffix, accumulateBytes_eq]
    congr 1
    omega
  · have hborder : 8 * (b / 8 + (e - 8 * (b / 8) - 1) / 8) =
        b + (8 - b % 8 + 8 * ((e - 8 * (b / 8) - 1) / 8 - 1)) := by omega
    rw [← fieldFrom_suffix, accumulateBytes_eq, Nat.add_assoc base,
      ← fieldFrom_prefix _ _ _ _ (by omega), hborder, fieldFrom_shiftLeft_or]
    congr 1
    omega

/-! ### What READ answers -/

theorem inBounds_mk_iff {c : Config} {base len b e : Nat} :
    inBounds c base len ⟨b, e⟩ = true ↔ (e - 1) / 8 < len ∧ base + (e - 1) / 8 ≤ 2 ^ c.addrW - 1 := by
  rw [inBounds_mk, decide_eq_true_eq]

/-- READ of a valid range in bounds (R110): its value on the port, and one read of each span byte in
the trace (R47). -/
theorem execRead_of_inBounds {base len : Nat} {r : BitRange} {s : State}
    (hv : validRange r = true) (hb : inBounds s.cfg base len r = true) :
    exec (.read base len r) s = .next { s with
      trace := s.trace ++ (bytesUp r).map fun k => .read (base + k) (s.mem.read (base + k))
      resp := some
        ⟨.ok, (resolve (span r)).2, BitVec.ofNat 64 (field s.mem base r), 0, 0⟩ } := by
  rw [execRead_eq, if_pos hv, if_pos hb, zext64_of_lt (field_lt_word hv), readBytes_eq, complete_eq]

theorem execRead_of_out_of_bounds {base len : Nat} {r : BitRange} {s : State}
    (hv : validRange r = true) (hb : ¬inBounds s.cfg base len r = true) :
    exec (.read base len r) s = raise .bounds s := by
  rw [execRead_eq, if_pos hv, if_neg hb]

/-- The MSB-first sum of R41 over the bit indices of the range. -/
theorem field_eq_sum (m : Memory) (base : Nat) (r : BitRange) :
    field m base r =
      ∑ i ∈ Finset.Ico r.beginBit r.endBit, bit m base i * 2 ^ (r.endBit - 1 - i) := by
  rw [Finset.sum_Ico_eq_sum_range]
  simp only [← Nat.shiftLeft_eq]
  rfl

/-- Settles O21: the model's field is the sum of R41, its byte indices count up from `begin / 8`, and
the two checks are the range's validity and the bounds. -/
theorem readReturnsTheField : Obligations.ReadReturnsTheField := by
  refine ⟨fun _ _ => decode_of_op, fun s base len b e => ⟨?_, ?_, fun h => ?_⟩⟩
  · rintro ⟨hlt, h64, hbounds⟩
    have hv : validRange ⟨b, e⟩ = true := validRange_iff.2 ⟨hlt, h64⟩
    refine ⟨field s.mem base ⟨b, e⟩, field_eq_sum _ _ _, field_lt _ _ _, ?_⟩
    rw [execRead_of_inBounds hv (inBounds_mk_iff.2 hbounds), bytesUp, List.map_map]
    rfl
  · rintro ⟨hlt, h64, hbounds⟩
    have hv : validRange ⟨b, e⟩ = true := validRange_iff.2 ⟨hlt, h64⟩
    exact execRead_of_out_of_bounds hv (mt inBounds_mk_iff.1 hbounds)
  · exact exec_of_firstError (if_neg (mt validRange_iff.1 h))

/-! ### The storage width of a result -/

/-- The class the resolver gives names the width it gives (R64, R80). -/
theorem wclassBits_resolve (n : Nat) : wclassBits (resolve n).2 = (resolve n).1 := by
  rcases resolve_cases n with ⟨-, h⟩ | ⟨-, -, h⟩ | ⟨-, -, h⟩ | ⟨-, -, h⟩ | ⟨-, h⟩ <;> rw [h] <;> rfl

theorem toNat_zext64_field {m : Memory} {base : Nat} {r : BitRange} (hv : validRange r = true) :
    (zext64 (field m base r)).toNat = field m base r := by
  rw [zext64_of_lt (field_lt_word hv), BitVec.toNat_ofNat, Nat.mod_eq_of_lt (field_lt_word hv)]

/-- Settles O25: a READ that answers OK returns a field of a valid range, and the resolved width
holds the span. -/
theorem readResultFitsTheStorageWidth : Obligations.ReadResultFitsTheStorageWidth := by
  intro s t base len b e r hexec hresp hok
  obtain ⟨hchecks, rfl⟩ := exec_of_status_ok hexec hresp hok
  obtain ⟨hv, -⟩ := Bool.and_eq_true_iff.1 (firstError_read_eq_none_iff.1 hchecks)
  cases hresp
  have hwidth : wclassBits (resolve (e - b)).2 = (resolve (e - b)).1 := wclassBits_resolve _
  have hspan : e - b ≤ wclassBits (resolve (e - b)).2 := by
    rw [hwidth]; exact le_resolve (validRange_iff.1 hv).2
  have hresult : (zext64 (field s.mem base ⟨b, e⟩)).toNat < 2 ^ (e - b) := by
    rw [toNat_zext64_field hv]; exact field_lt s.mem base ⟨b, e⟩
  exact ⟨hwidth, hspan, hresult, hresult.trans_le (Nat.pow_le_pow_right Nat.two_pos hspan)⟩

/-! ### One bit -/

theorem span_oneBit (i : Nat) : span ⟨i, i + 1⟩ = 1 := Nat.add_sub_cancel_left i 1

theorem field_oneBit (m : Memory) (base i : Nat) :
    field m base ⟨i, i + 1⟩ = (bitSet m base i).toNat := by
  rw [field_eq_fieldFrom, span_oneBit, ← bit_eq_toNat, fieldFrom, fieldFrom, Nat.mul_zero,
    Nat.zero_add, Nat.add_zero]

theorem bytesUp_oneBit (i : Nat) : bytesUp ⟨i, i + 1⟩ = [i / 8] := by
  simp [bytesUp, firstByte, lastByte, byteOf]

/-- Settles O26: a one-bit field is the bit, in the one byte that holds it. -/
theorem oneBitReadIsABoolean : Obligations.OneBitReadIsABoolean := by
  intro s base len i hlen haddr
  have hv : validRange ⟨i, i + 1⟩ = true := by simp [validRange_iff]
  have hb : inBounds s.cfg base len ⟨i, i + 1⟩ = true := inBounds_mk_iff.2 ⟨hlen, haddr⟩
  have hresult : ∀ x : Bool, BitVec.ofNat 64 x.toNat = if x then 1 else 0 := by decide
  rw [execRead_of_inBounds hv hb, bytesUp_oneBit, span_oneBit, field_oneBit, hresult]
  rfl

end Sys2Proof.Machine
end

section
/-!
PROOFS. WRITE and MERGE (43_write.md) by their rules of record: what one that passes its checks leaves
in the buffer memory, bit by bit, and what READ then answers. From it the effect of both requests (R131,
R135), their placement (R130), and the properties of R140 to R143 and R145 to R147.
-/

namespace Sys2Proof.Machine

/-! ### The checks of a WRITE or MERGE -/

section Checks

variable {s : State} {base len b e : Nat} {v : Word}

theorem updateError_eq_none (hlt : b < e) (h64 : e - b ≤ 64) (hlen : (e - 1) / 8 < len)
    (haddr : base + (e - 1) / 8 ≤ 2 ^ s.cfg.addrW - 1) (hfits : v.toNat < 2 ^ (e - b)) :
    updateError s.cfg base len ⟨b, e⟩ v = none := by
  have hvalid : validRange ⟨b, e⟩ = true := validRange_iff.2 ⟨hlt, h64⟩
  have hvalue : valueFits ⟨b, e⟩ v = true := valueFits_iff.2 hfits
  have hbounds : inBounds s.cfg base len ⟨b, e⟩ = true := inBounds_mk_iff.2 ⟨hlen, haddr⟩
  simp only [updateError, hvalid, hvalue, hbounds, if_true]

theorem updateField_of_error (f : Nat → Byte → Byte) {r : BitRange} {err : ErrorCode}
    (h : updateError s.cfg base len r v = some err) :
    updateField f base len r v s = raise err s := by
  rw [updateField_eq, h]; rfl

theorem updateField_of_out_of_bounds (f : Nat → Byte → Byte)
    (h : b < e ∧ e - b ≤ 64 ∧ v.toNat < 2 ^ (e - b) ∧
      ¬((e - 1) / 8 < len ∧ base + (e - 1) / 8 ≤ 2 ^ s.cfg.addrW - 1)) :
    updateField f base len ⟨b, e⟩ v s = raise .bounds s := by
  obtain ⟨hlt, h64, hfits, hout⟩ := h
  have hvalid : validRange ⟨b, e⟩ = true := validRange_iff.2 ⟨hlt, h64⟩
  have hvalue : valueFits ⟨b, e⟩ v = true := valueFits_iff.2 hfits
  have hbounds : ¬inBounds s.cfg base len ⟨b, e⟩ = true := mt inBounds_mk_iff.1 hout
  exact updateField_of_error f (by simp [updateError, hvalid, hvalue, hbounds])

theorem updateField_of_overflow (f : Nat → Byte → Byte)
    (h : b < e ∧ e - b ≤ 64 ∧ 2 ^ (e - b) ≤ v.toNat) :
    updateField f base len ⟨b, e⟩ v s = raise .overflow s := by
  obtain ⟨hlt, h64, hover⟩ := h
  have hvalid : validRange ⟨b, e⟩ = true := validRange_iff.2 ⟨hlt, h64⟩
  have hvalue : ¬valueFits ⟨b, e⟩ v = true := mt valueFits_iff.1 (Nat.not_lt.2 hover)
  exact updateField_of_error f (by simp [updateError, hvalid, hvalue])

theorem updateField_of_invalid (f : Nat → Byte → Byte) (h : ¬(b < e ∧ e - b ≤ 64)) :
    updateField f base len ⟨b, e⟩ v s = raise .range s :=
  updateField_of_error f (if_neg (mt validRange_iff.1 h))

end Checks

/-! ### The effect of a WRITE or MERGE -/

/-- A WRITE or MERGE that passes its checks changes the memory, the trace (one read and one write of
each span byte, from the last down, R48) and the response. -/
theorem updateField_of_no_error (f : Nat → Byte → Byte) {base len : Nat} {r : BitRange} {v : Word}
    {s : State} (hm : s.mem.wf) (h : updateError s.cfg base len r v = none) :
    updateField f base len r v s = .next { s with
      mem := (updateBytes f base (bytesDown r) s).mem
      trace := s.trace ++ (List.range (lastByte r + 1 - firstByte r)).flatMap fun j =>
        [.read (base + (lastByte r - j)) (s.mem.read (base + (lastByte r - j))),
          .write (base + (lastByte r - j))
            ((updateBytes f base (bytesDown r) s).mem.read (base + (lastByte r - j)))]
      resp := some ⟨.ok, (resolve (span r)).2, 0, 0, 0⟩ } := by
  rw [updateField_eq, h]
  simp only [Option.elim, complete_eq]
  rw [updateBytes_frame, updateBytes_trace_final f base (nodup_bytesDown r) hm]
  simp only [bytesDown, List.flatMap_map]

/-- The bytes outside the span stay. -/
theorem updateBytes_read_outside_span (f : Nat → Byte → Byte) {base : Nat} {r : BitRange}
    (hv : validRange r = true) (s : State) {a : Nat}
    (ha : a < base + firstByte r ∨ base + lastByte r < a) :
    (updateBytes f base (bytesDown r) s).mem.read a = s.mem.read a := by
  refine updateBytes_read_of_not_mem f base (fun k hk => ?_) s
  obtain ⟨hfirst, hlast⟩ := (mem_bytesDown (firstByte_le_lastByte hv)).1 hk
  omega

/-- Each byte of the span becomes `f k old`. -/
theorem updateBytes_read_in_span (f : Nat → Byte → Byte) (base : Nat) {r : BitRange}
    (hv : validRange r = true) {s : State} (hm : s.mem.wf) {k : Nat} (hfirst : firstByte r ≤ k)
    (hlast : k ≤ lastByte r) :
    (updateBytes f base (bytesDown r) s).mem.read (base + k) = f k (s.mem.read (base + k)) :=
  updateBytes_read_of_mem f base hm (nodup_bytesDown r)
    ((mem_bytesDown (firstByte_le_lastByte hv)).2 ⟨hfirst, hlast⟩)

theorem toNat_testBit_eq_shiftRight (v i : Nat) : (v.testBit i).toNat = (v >>> i) % 2 := by
  rw [Nat.toNat_testBit, Nat.shiftRight_eq_div_pow]

theorem toNat_or_eq_or_toNat : ∀ x y : Bool, (x || y).toNat = x.toNat ||| y.toNat := by decide

/-- WRITE at the bit level, in the numbers of R131. -/
theorem bit_overwrite (base : Nat) {r : BitRange} (hv : validRange r = true) {v : Nat}
    (hfits : v < 2 ^ span r) {s : State} (hm : s.mem.wf) (i : Nat) :
    bit (updateBytes (overwriteByte r v) base (bytesDown r) s).mem base i =
      if r.beginBit ≤ i ∧ i < r.endBit then (v >>> (r.endBit - 1 - i)) % 2
      else bit s.mem base i := by
  rw [bit_eq_toNat, bit_eq_toNat, bitSet_overwrite base hv hfits hm, apply_ite Bool.toNat,
    toNat_testBit_eq_shiftRight]

/-- MERGE at the bit level, in the numbers of R135. -/
theorem bit_merge (base : Nat) {r : BitRange} (hv : validRange r = true) {v : Nat}
    (hfits : v < 2 ^ span r) {s : State} (hm : s.mem.wf) (i : Nat) :
    bit (updateBytes (mergeByte r v) base (bytesDown r) s).mem base i =
      if r.beginBit ≤ i ∧ i < r.endBit then bit s.mem base i ||| (v >>> (r.endBit - 1 - i)) % 2
      else bit s.mem base i := by
  rw [bit_eq_toNat, bit_eq_toNat, bitSet_merge base hv hfits hm, apply_ite Bool.toNat,
    toNat_or_eq_or_toNat, toNat_testBit_eq_shiftRight]

/-- Settles O28: the bytes follow the formula of R131, and the checks come in the order of R165. -/
theorem writeReplacesExactlyTheField : Obligations.WriteReplacesExactlyTheField := by
  refine ⟨fun _ _ => decode_of_op, fun s base len b e v hm => ⟨?_, updateField_of_out_of_bounds _,
    updateField_of_overflow _, updateField_of_invalid _⟩⟩
  rintro ⟨hlt, h64, hfits, hlen, haddr⟩
  have hchecks := updateError_eq_none hlt h64 hlen haddr hfits
  have hv : validRange ⟨b, e⟩ = true := validRange_iff.2 ⟨hlt, h64⟩
  exact ⟨_, updateField_of_no_error _ hm hchecks,
    fun k => updateBytes_read_in_span _ base hv hm, bit_overwrite base hv hfits hm,
    fun a => updateBytes_read_outside_span _ hv s⟩

/-- Settles O29: the bytes follow the formula of R135, and the checks come in the order of R165. -/
theorem mergeOrsTheValueIntoTheField : Obligations.MergeOrsTheValueIntoTheField := by
  refine ⟨fun _ _ => decode_of_op, fun s base len b e v hm => ⟨?_, updateField_of_out_of_bounds _,
    updateField_of_overflow _, updateField_of_invalid _⟩⟩
  rintro ⟨hlt, h64, hfits, hlen, haddr⟩
  have hchecks := updateError_eq_none hlt h64 hlen haddr hfits
  have hv : validRange ⟨b, e⟩ = true := validRange_iff.2 ⟨hlt, h64⟩
  exact ⟨_, updateField_of_no_error _ hm hchecks,
    fun k => updateBytes_read_in_span _ base hv hm, bit_merge base hv hfits hm,
    fun a => updateBytes_read_outside_span _ hv s⟩

/-! ### Placement -/

/-- A value that fits has no bit before the range's first, so bit `q` (LSB-0) of byte `k`'s placed bits
is zero outside the range. -/
theorem getLsbD_placedBits_of_fits {r : BitRange} (hv : validRange r = true) {v k q : Nat}
    (hfits : v < 2 ^ span r) (hk : k ≤ lastByte r) (hq : q < 8) :
    (placedBits r v k).getLsbD q =
      (decide (r.beginBit ≤ 8 * k + (7 - q) ∧ 8 * k + (7 - q) < r.endBit) &&
        v.testBit (r.endBit - 1 - (8 * k + (7 - q)))) := by
  rw [getLsbD_placedBits hk hq]
  by_cases hbegin : r.beginBit ≤ 8 * k + (7 - q)
  · simp only [hbegin, true_and]
  · have hclear : v.testBit (r.endBit - 1 - (8 * k + (7 - q))) = false :=
      (testBit_value_eq_false hfits (Nat.lt_of_not_le hbegin)).resolve_right
        (Nat.not_le.2 (validRange_iff.1 hv).1)
    rw [hclear, Bool.and_false, Bool.and_false]

/-- Settles O30: position `p` of a byte is its bit `7 - p`. -/
theorem placementCoversTheRange : Obligations.PlacementCoversTheRange := by
  intro b e v k p hlt h64 hfits _ hlast hp
  have hv : validRange ⟨b, e⟩ = true := validRange_iff.2 ⟨hlt, h64⟩
  have hpos : 7 - (7 - p) = p := by omega
  refine ⟨?_, ?_⟩
  · rw [getLsbD_coverMask hv hlast (by omega), hpos]
  · rw [getLsbD_placedBits_of_fits hv hfits hlast (by omega), hpos]

/-! ### The buffer after a request that passes its checks -/

theorem succeed_cfg (i : Instr) (s : State) : (succeed i s).cfg = s.cfg := by
  cases i with
  | read base len r => simp [succeed, performAccesses, readBytes_eq]
  | write base len r v => rw [succeed, performAccesses, updateBytes_frame]; rfl
  | merge base len r v => rw [succeed, performAccesses, updateBytes_frame]; rfl
  | _ => rfl

/-- A request raises an error and leaves memory and widths alone, or passes its checks. -/
theorem exec_next_cases {i : Instr} {s t : State} (h : exec i s = .next t) :
    (∃ err, firstError s.cfg i = some err ∧ t.mem = s.mem) ∨
    (firstError s.cfg i = none ∧ t = succeed i s) := by
  cases hchecks : firstError s.cfg i with
  | some err => cases (exec_of_firstError hchecks).symm.trans h; exact .inl ⟨err, rfl, rfl⟩
  | none => cases (exec_of_no_error hchecks).symm.trans h; exact .inr ⟨rfl, rfl⟩

/-- No request writes a byte below the base it names. -/
theorem AccessesRange.read_below_base {i : Instr} {base len : Nat} {r : BitRange} {v : Word}
    (hi : AccessesRange i base len r v) {s t : State} (h : exec i s = .next t) {a : Nat}
    (ha : a < base) : t.mem.read a = s.mem.read a := by
  obtain ⟨-, -, -, hframe, -⟩ := exec_footprint h
  refine hframe a fun hwritten => ?_
  rcases hi with rfl | rfl | rfl
  · simp [writtenBytes] at hwritten
  · exact absurd (span_of_mem_updated hwritten).1 (by omega)
  · exact absurd (span_of_mem_updated hwritten).1 (by omega)

theorem AccessesRange.read_succeed_below {i : Instr} {base len : Nat} {r : BitRange} {v : Word}
    (hi : AccessesRange i base len r v) {s : State} (h : firstError s.cfg i = none) {a : Nat}
    (ha : a < base) : (succeed i s).mem.read a = s.mem.read a :=
  hi.read_below_base (exec_of_no_error h) ha

/-- Settles O36: an error leaves memory alone, and a request that passes its checks leaves the bits
outside its range alone. -/
theorem writesLeaveOtherBitsAlone : Obligations.WritesLeaveOtherBitsAlone := by
  intro s t base len b e v hm h
  obtain ⟨i, hi, h⟩ : ∃ i, AccessesRange i base len ⟨b, e⟩ v ∧ exec i s = .next t := by
    rcases h with h | h
    · exact ⟨_, .inr (.inl rfl), h⟩
    · exact ⟨_, .inr (.inr rfl), h⟩
  refine ⟨fun j hj => ?_, fun a => hi.read_below_base h⟩
  rcases exec_next_cases h with ⟨_, -, hmem⟩ | ⟨hchecks, rfl⟩
  · rw [hmem]
  · exact hi.bit_succeed hm hchecks hj

/-! ### What READ answers afterwards -/

/-- READ of a valid range in bounds answers OK with the field. -/
theorem execRead_responds {base len : Nat} {r : BitRange} {s : State}
    (hv : validRange r = true) (hb : inBounds s.cfg base len r = true) :
    ∃ t, exec (.read base len r) s = .next t ∧ t.resp = some
      ⟨.ok, (resolve (span r)).2, BitVec.ofNat 64 (field s.mem base r), 0, 0⟩ :=
  ⟨_, execRead_of_inBounds hv hb, rfl⟩

/-- READ of a range whose field two buffers share is answered alike from both, whatever the
answer. -/
theorem execRead_resp_congr {base : Nat} {r : BitRange} {s t : State} (len : Nat)
    (hcfg : t.cfg = s.cfg) (hfield : field t.mem base r = field s.mem base r) :
    ∃ x y, exec (.read base len r) t = .next x ∧ exec (.read base len r) s = .next y ∧
      x.resp = y.resp := by
  cases hchecks : firstError s.cfg (.read base len r) with
  | some err =>
    exact ⟨_, _, exec_of_firstError (hcfg ▸ hchecks), exec_of_firstError hchecks, rfl⟩
  | none =>
    refine ⟨_, _, exec_of_no_error (hcfg ▸ hchecks), exec_of_no_error hchecks, ?_⟩
    show some (okResponse t.mem _) = some (okResponse s.mem _)
    rw [okResponse, okResponse, hfield]

/-- Settles O27: the two ranges have one span, so their fields, bit by bit the same, are one
number. -/
theorem equalBitContentReadsEqual : Obligations.EqualBitContentReadsEqual := by
  intro s s' base base' len len' b b' n hpos h64 hlen haddr hlen' haddr' hbits
  have hspan : ∀ c, span ⟨c, c + n⟩ = n := fun c => Nat.add_sub_cancel_left c n
  have hvalid : ∀ c, validRange ⟨c, c + n⟩ = true := fun c => validRange_iff.2 (by simp; omega)
  have hfield : field s.mem base ⟨b, b + n⟩ = field s'.mem base' ⟨b', b' + n⟩ :=
    field_congr ((hspan b).trans (hspan b').symm) fun j hj =>
      bit_eq_iff.1 (hbits j (hspan b ▸ hj))
  obtain ⟨t, ht, hresp⟩ := execRead_responds (hvalid b) (inBounds_mk_iff.2 ⟨hlen, haddr⟩)
  obtain ⟨t', ht', hresp'⟩ := execRead_responds (hvalid b') (inBounds_mk_iff.2 ⟨hlen', haddr'⟩)
  rw [hspan, ← hfield] at hresp'
  rw [hspan] at hresp
  exact ⟨t, t', _, ht, ht', hresp, hresp', rfl⟩

/-! ### Fields and memories by their bits -/

section Bits

variable {m : Memory} {base : Nat} {r : BitRange}

/-- Bit `i` of the buffer is the field's bit `end - 1 - i` (R41). -/
theorem testBit_field_of_mem {i : Nat} (hbegin : r.beginBit ≤ i) (hend : i < r.endBit) :
    (field m base r).testBit (r.endBit - 1 - i) = bitSet m base i := by
  have hspan : span r = r.endBit - r.beginBit := rfl
  have hpos : r.beginBit + (span r - 1 - (r.endBit - 1 - i)) = i := by omega
  rw [testBit_field, decide_eq_true (by omega), Bool.true_and, hpos]

/-- A field is the number whose bits the buffer holds in its range. -/
theorem field_eq_of_bitSet {x : Nat} (hx : x < 2 ^ span r)
    (h : ∀ i, r.beginBit ≤ i → i < r.endBit → bitSet m base i = x.testBit (r.endBit - 1 - i)) :
    field m base r = x := by
  have hspan : span r = r.endBit - r.beginBit := rfl
  refine Nat.eq_of_testBit_eq fun j => ?_
  by_cases hj : j < span r
  · have hpos : r.endBit - 1 - (r.endBit - 1 - j) = j := by omega
    have hbit := h (r.endBit - 1 - j) (by omega) (by omega)
    rw [← testBit_field_of_mem (r := r) (by omega) (by omega), hpos] at hbit
    exact hbit
  · have hhigh : 2 ^ span r ≤ 2 ^ j := Nat.pow_le_pow_right Nat.two_pos (Nat.le_of_not_lt hj)
    rw [Nat.testBit_lt_two_pow (hx.trans_le hhigh),
      Nat.testBit_lt_two_pow ((field_lt m base r).trans_le hhigh)]

/-- The target bits of a MERGE are zero exactly when their field is (R137). -/
theorem field_eq_zero_iff :
    field m base r = 0 ↔ ∀ i, r.beginBit ≤ i → i < r.endBit → bit m base i = 0 := by
  refine ⟨fun h i hbegin hend => ?_, fun h => field_eq_of_bitSet (Nat.two_pow_pos _)
    fun i hbegin hend => ?_⟩
  · rw [bit_eq_zero_iff, ← testBit_field_of_mem hbegin hend, h, Nat.zero_testBit]
  · rw [bit_eq_zero_iff.1 (h i hbegin hend), Nat.zero_testBit]

/-- Canonical memories that agree below a base and at every bit from it on are equal. -/
theorem Memory.ext_of_bitSet {m' : Memory} (hm : m.wf) (hm' : m'.wf)
    (hbelow : ∀ a < base, m.read a = m'.read a)
    (hbits : ∀ i, bitSet m base i = bitSet m' base i) : m = m' := by
  refine Memory.ext_of_read hm hm' fun a => ?_
  rcases Nat.lt_or_ge a base with ha | ha
  · exact hbelow a ha
  · obtain ⟨k, rfl⟩ := Nat.exists_eq_add_of_le ha
    exact read_eq_of_bitSet fun p _ => hbits _

end Bits

/-! ### The buffer after a WRITE or MERGE that passes its checks -/

section Effect

variable {s : State} {base len : Nat} {r : BitRange} {v : Word}

theorem succeed_wf {i : Instr} (hm : s.mem.wf) (h : firstError s.cfg i = none) :
    (succeed i s).mem.wf := by
  obtain ⟨-, hwf, -⟩ := exec_footprint (exec_of_no_error h)
  exact hwf hm

theorem inBounds_of_updateError {c : Config} (h : updateError c base len r v = none) :
    inBounds c base len r = true :=
  (Bool.and_eq_true_iff.1 (updateError_eq_none_iff.1 h)).2

theorem bitSet_succeed_write (hm : s.mem.wf) (h : updateError s.cfg base len r v = none)
    (i : Nat) : bitSet (succeed (.write base len r v) s).mem base i =
      if r.beginBit ≤ i ∧ i < r.endBit then v.toNat.testBit (r.endBit - 1 - i)
      else bitSet s.mem base i :=
  have ⟨hv, hfits⟩ := range_and_value_of_updateError h
  bitSet_overwrite base hv hfits hm i

theorem bitSet_succeed_merge (hm : s.mem.wf) (h : updateError s.cfg base len r v = none)
    (i : Nat) : bitSet (succeed (.merge base len r v) s).mem base i =
      if r.beginBit ≤ i ∧ i < r.endBit then
        bitSet s.mem base i || v.toNat.testBit (r.endBit - 1 - i)
      else bitSet s.mem base i :=
  have ⟨hv, hfits⟩ := range_and_value_of_updateError h
  bitSet_merge base hv hfits hm i

/-- After a WRITE the field is the value, whatever it was (R146). -/
theorem field_succeed_write (hm : s.mem.wf) (h : updateError s.cfg base len r v = none) :
    field (succeed (.write base len r v) s).mem base r = v.toNat :=
  have ⟨_, hfits⟩ := range_and_value_of_updateError h
  field_eq_of_bitSet hfits fun i hbegin hend =>
    (bitSet_succeed_write hm h i).trans (if_pos ⟨hbegin, hend⟩)

/-- After a MERGE the field is the old one ORed with the value (R147). -/
theorem field_succeed_merge (hm : s.mem.wf) (h : updateError s.cfg base len r v = none) :
    field (succeed (.merge base len r v) s).mem base r = field s.mem base r ||| v.toNat := by
  obtain ⟨-, hfits⟩ := range_and_value_of_updateError h
  refine field_eq_of_bitSet (Nat.or_lt_two_pow (field_lt s.mem base r) hfits)
    fun i hbegin hend => ?_
  rw [bitSet_succeed_merge hm h, if_pos ⟨hbegin, hend⟩, Nat.testBit_or,
    testBit_field_of_mem hbegin hend]

/-- READ of the range after a WRITE or MERGE of it that passed its checks. -/
theorem execRead_after {i : Instr} {x : Nat} (h : updateError s.cfg base len r v = none)
    (hfield : field (succeed i s).mem base r = x) :
    ∃ u, exec (.read base len r) (succeed i s) = .next u ∧ u.resp = some
      ⟨.ok, (resolve (span r)).2, BitVec.ofNat 64 x, 0, 0⟩ := by
  obtain ⟨hv, -⟩ := range_and_value_of_updateError h
  subst hfield
  exact execRead_responds hv (by rw [succeed_cfg]; exact inBounds_of_updateError h)

end Effect

/-! ### Round trips -/

/-- Settles O35: after WRITE the field is the value, and after MERGE it is the zero field ORed with the
value. -/
theorem writeThenReadRoundTrip : Obligations.WriteThenReadRoundTrip := by
  intro s base len b e v hm hlt h64 hlen haddr hfits hzero i hi
  have hchecks := updateError_eq_none hlt h64 hlen haddr hfits
  have hfield : firstError s.cfg i = none ∧ field (succeed i s).mem base ⟨b, e⟩ = v.toNat := by
    simp only [List.mem_cons, List.not_mem_nil, or_false] at hi
    rcases hi with rfl | rfl
    · exact ⟨hchecks, field_succeed_write hm hchecks⟩
    · refine ⟨hchecks, ?_⟩
      rw [field_succeed_merge hm hchecks, field_eq_zero_iff.2 hzero, Nat.zero_or]
  obtain ⟨hfirst, hvalue⟩ := hfield
  obtain ⟨u, hread, hresp⟩ := execRead_after hchecks hvalue
  rw [BitVec.ofNat_toNat, BitVec.setWidth_eq] at hresp
  exact ⟨_, u, exec_of_no_error hfirst, hread, hresp⟩

/-- Settles O39: after WRITE the field is the value, and a disjoint range holds the bits it held. -/
theorem readAfterWriteOnAnyContent : Obligations.ReadAfterWriteOnAnyContent := by
  intro s base len b e v hm hlt h64 hlen haddr hfits
  have hchecks := updateError_eq_none hlt h64 hlen haddr hfits
  obtain ⟨u, hread, hresp⟩ := execRead_after hchecks (field_succeed_write hm hchecks)
  rw [BitVec.ofNat_toNat, BitVec.setWidth_eq] at hresp
  refine ⟨_, exec_of_no_error hchecks, ⟨u, hread, hresp⟩, fun len' b' e' hdisjoint => ?_⟩
  refine execRead_resp_congr len' (succeed_cfg _ s) (field_congr rfl fun j hj => ?_)
  have hj : j < e' - b' := hj
  rw [bitSet_succeed_write hm hchecks, if_neg]
  show ¬(b ≤ b' + j ∧ b' + j < e)
  omega

/-- Settles O40: after MERGE the field is the old one ORed with the value, and zero bits take the
value's under both requests. -/
theorem mergeReadsBackOldOrValue : Obligations.MergeReadsBackOldOrValue := by
  intro s base len b e v hm hlt h64 hlen haddr hfits
  have hchecks := updateError_eq_none hlt h64 hlen haddr hfits
  have hwrite : AccessesRange (.write base len ⟨b, e⟩ v) base len ⟨b, e⟩ v := .inr (.inl rfl)
  have hmerge : AccessesRange (.merge base len ⟨b, e⟩ v) base len ⟨b, e⟩ v := .inr (.inr rfl)
  obtain ⟨u, hread, hresp⟩ := execRead_after hchecks (field_succeed_merge hm hchecks)
  refine ⟨_, u, _, exec_of_no_error hchecks, hread, hresp, exec_of_no_error hchecks,
    fun hzero => Memory.ext_of_bitSet (base := base) (succeed_wf hm hchecks) (succeed_wf hm hchecks)
      (fun a ha => ?_) fun i => ?_⟩
  · rw [hwrite.read_succeed_below hchecks ha, hmerge.read_succeed_below hchecks ha]
  · rw [bitSet_succeed_write hm hchecks, bitSet_succeed_merge hm hchecks]
    by_cases hi : b ≤ i ∧ i < e
    · have hclear : bitSet s.mem base i = false :=
        bit_eq_zero_iff.1 (field_eq_zero_iff.1 hzero i hi.1 hi.2)
      rw [if_pos hi, if_pos hi, hclear, Bool.false_or]
    · rw [if_neg hi, if_neg hi]

/-! ### Repeated requests -/

/-- Settles O37: bit by bit, `(old | v₁) | v₂ = old | (v₁ | v₂)`. -/
theorem mergesAdd : Obligations.MergesAdd := by
  intro s base len b e v₁ v₂ hm hlt h64 hlen haddr hfits₁ hfits₂
  have hfits : (v₁ ||| v₂).toNat < 2 ^ (e - b) := by
    rw [BitVec.toNat_or]; exact Nat.or_lt_two_pow hfits₁ hfits₂
  have hchecks₁ := updateError_eq_none hlt h64 hlen haddr hfits₁
  have hchecks := updateError_eq_none hlt h64 hlen haddr hfits
  have hchecks₂ : updateError (succeed (.merge base len ⟨b, e⟩ v₁) s).cfg base len ⟨b, e⟩ v₂ =
      none := by
    rw [succeed_cfg]
    exact updateError_eq_none hlt h64 hlen haddr hfits₂
  have hm₁ : (succeed (.merge base len ⟨b, e⟩ v₁) s).mem.wf := succeed_wf hm hchecks₁
  have hmerge : ∀ v, AccessesRange (.merge base len ⟨b, e⟩ v) base len ⟨b, e⟩ v :=
    fun _ => .inr (.inr rfl)
  refine ⟨_, _, _, exec_of_no_error hchecks₁, exec_of_no_error hchecks₂, exec_of_no_error hchecks,
    Memory.ext_of_bitSet (base := base) (succeed_wf hm₁ hchecks₂) (succeed_wf hm hchecks)
      (fun a ha => ?_) fun i => ?_⟩
  · rw [(hmerge v₂).read_succeed_below hchecks₂ ha, (hmerge v₁).read_succeed_below hchecks₁ ha,
      (hmerge (v₁ ||| v₂)).read_succeed_below hchecks ha]
  · rw [bitSet_succeed_merge hm₁ hchecks₂, bitSet_succeed_merge hm hchecks₁,
      bitSet_succeed_merge hm hchecks, BitVec.toNat_or, Nat.testBit_or]
    split_ifs
    · exact Bool.or_assoc _ _ _
    · rfl

/-- Settles O38: a WRITE that failed fails again, and one that passed its checks sets bits that already
hold the value's. -/
theorem writingTwiceIsWritingOnce : Obligations.WritingTwiceIsWritingOnce := by
  intro s t base len b e v hm h
  obtain ⟨hcfg, -⟩ := exec_footprint h
  rcases exec_next_cases h with ⟨err, herr, hmem⟩ | ⟨hchecks, rfl⟩
  · exact ⟨_, exec_of_firstError (hcfg ▸ herr), rfl⟩
  · have hchecks' := hcfg ▸ hchecks
    have hm' := succeed_wf hm hchecks
    have hwrite : AccessesRange (.write base len ⟨b, e⟩ v) base len ⟨b, e⟩ v := .inr (.inl rfl)
    refine ⟨_, exec_of_no_error hchecks', Memory.ext_of_bitSet (base := base)
      (succeed_wf hm' hchecks') hm' (fun a => hwrite.read_succeed_below hchecks') fun i => ?_⟩
    rw [bitSet_succeed_write hm' hchecks', bitSet_succeed_write hm hchecks]
    split_ifs <;> rfl

end Sys2Proof.Machine
end

section
/-!
PROOFS. The source's own write algorithms (43_write.md R132, R133, R136): the bytes they make are those
of the rules of record (R131, R135), in the same order.
-/

namespace Sys2Proof.Machine

/-! ### The bytes the source makes -/

/-- What both write paths make of byte `k` of the span: R131 in an overwrite, R135 in a merge. -/
def WriteMode.updateByte (mode : WriteMode) (r : BitRange) (v k : Nat) : Byte → Byte :=
  combine mode (coverMask r k) (placedBits r v k)

theorem updateByte_overwrite (r : BitRange) (v : Nat) :
    WriteMode.overwrite.updateByte r v = overwriteByte r v := rfl

theorem updateByte_merge (r : BitRange) (v : Nat) :
    WriteMode.merge.updateByte r v = mergeByte r v := rfl

/-- The last byte takes the value's low bits from position `lowGap` on. -/
theorem coverMask_lastByte (r : BitRange) :
    coverMask r (lastByte r) = BitVec.ofNat 8 ((2 ^ span r - 1) <<< lowGap r) := by
  rw [coverMask, Nat.sub_self, Nat.mul_zero, Nat.shiftRight_zero]

theorem placedBits_lastByte (r : BitRange) (v : Nat) :
    placedBits r v (lastByte r) = BitVec.ofNat 8 (v <<< lowGap r) := by
  rw [placedBits, Nat.sub_self, Nat.mul_zero, Nat.shiftRight_zero]

/-- A byte whose gap lies in the bytes after it takes the value's bits from `8 * (lb - k) - lowGap`
on. -/
theorem placedBits_of_lowGap_le {r : BitRange} {k : Nat} (h : lowGap r ≤ 8 * (lastByte r - k))
    (v : Nat) : placedBits r v k = BitVec.ofNat 8 (v >>> (8 * (lastByte r - k) - lowGap r)) := by
  obtain ⟨d, hd⟩ := Nat.exists_eq_add_of_le h
  rw [placedBits, hd, Nat.shiftRight_add, Nat.shiftLeft_shiftRight, Nat.add_sub_cancel_left]

section Range

variable {r : BitRange} (hv : validRange r = true)

include hv

/-- A byte inside the range is covered whole. -/
theorem coverMask_of_inside {k : Nat} (hfirst : r.beginBit ≤ 8 * k) (hlast : 8 * k + 8 ≤ r.endBit) :
    coverMask r k = 0xFF := by
  have hr := validRange_iff.1 hv
  have hk : k ≤ lastByte r := by simp only [lastByte, byteOf]; omega
  refine BitVec.eq_of_getLsbD_eq fun q hq => ?_
  have hones : (0xFF : Byte).getLsbD q = true := by
    rw [show (0xFF : Byte) = BitVec.allOnes 8 from rfl, BitVec.getLsbD_allOnes, decide_eq_true hq]
  rw [getLsbD_coverMask hv hk hq, hones, decide_eq_true (by omega)]

/-- The tail mask of R133: positions `0 .. t - 1` of a last byte that begins inside the range. -/
theorem coverMask_tail (hmany : firstByte r < lastByte r) :
    coverMask r (lastByte r) = BitVec.ofNat 8 (0xFF <<< lowGap r) := by
  have hr := validRange_iff.1 hv
  have hfirst : firstByte r = r.beginBit / 8 := rfl
  have hlast : lastByte r = (r.endBit - 1) / 8 := rfl
  have hgap : lowGap r = 8 * (lastByte r + 1) - r.endBit := rfl
  refine BitVec.eq_of_getLsbD_eq fun q hq => ?_
  rw [getLsbD_coverMask hv le_rfl hq, Bool.eq_iff_iff]
  simp only [BitVec.getLsbD_ofNat, hq, decide_true, Bool.true_and, Nat.testBit_shiftLeft,
    show (0xFF : Nat) = 2 ^ 8 - 1 from rfl, Nat.testBit_two_pow_sub_one, Bool.and_eq_true,
    decide_eq_true_eq]
  omega

/-- The head mask of R133: positions `begin' .. 7` of a first byte that ends inside the range. -/
theorem coverMask_head (hmany : firstByte r < lastByte r) :
    coverMask r (firstByte r) = BitVec.ofNat 8 (0xFF >>> (r.beginBit % 8)) := by
  have hr := validRange_iff.1 hv
  have hfirst : firstByte r = r.beginBit / 8 := rfl
  have hlast : lastByte r = (r.endBit - 1) / 8 := rfl
  refine BitVec.eq_of_getLsbD_eq fun q hq => ?_
  rw [getLsbD_coverMask hv hmany.le hq, Bool.eq_iff_iff]
  simp only [BitVec.getLsbD_ofNat, hq, decide_true, Bool.true_and, Nat.testBit_shiftRight,
    show (0xFF : Nat) = 2 ^ 8 - 1 from rfl, Nat.testBit_two_pow_sub_one, decide_eq_true_eq]
  omega

/-- The bits of a value that fits lie under the mask. -/
theorem placedBits_and_coverMask {v k : Nat} (hfits : v < 2 ^ span r) (hk : k ≤ lastByte r) :
    placedBits r v k &&& coverMask r k = placedBits r v k := by
  refine BitVec.eq_of_getLsbD_eq fun q hq => ?_
  rw [BitVec.getLsbD_and, getLsbD_coverMask hv hk hq, getLsbD_placedBits_of_fits hv hfits hk hq,
    Bool.and_right_comm, Bool.and_self]

/-! ### Tail to head -/

/-- The head byte of R133 takes what is left of the value after the bytes behind it. -/
theorem writeHead_eq (mode : WriteMode) (base : Nat) {v : Nat} (hfits : v < 2 ^ span r)
    (hmany : firstByte r < lastByte r) (s : State) :
    writeHead mode (base + firstByte r) (r.beginBit % 8)
        (v >>> (8 * (lastByte r - firstByte r) - lowGap r)) s =
      rmwByte (base + firstByte r) (mode.updateByte r v (firstByte r)) s := by
  have hgap : lowGap r ≤ 8 * (lastByte r - firstByte r) := by
    have hr := validRange_iff.1 hv
    simp only [lowGap, firstByte, lastByte, byteOf] at hmany ⊢
    omega
  simp only [writeHead, WriteMode.updateByte]
  rw [← coverMask_head hv hmany, ← placedBits_of_lowGap_le hgap,
    placedBits_and_coverMask hv hfits hmany.le]

/-- The `k` whole bytes of R133 behind the head byte, and what is then left of the value. -/
theorem consumeBytes_span (mode : WriteMode) (base v : Nat) {k : Nat}
    (hk : firstByte r + k ≤ lastByte r) (hgap : lowGap r ≤ 8 * (lastByte r - (firstByte r + k)))
    (s : State) :
    consumeBytes mode (base + firstByte r) k
        (v >>> (8 * (lastByte r - (firstByte r + k)) - lowGap r)) s =
      (v >>> (8 * (lastByte r - firstByte r) - lowGap r),
        updateBytes (mode.updateByte r v) base ((List.range k).map (firstByte r + k - ·)) s) := by
  have hr := validRange_iff.1 hv
  have hfirst : firstByte r = r.beginBit / 8 := rfl
  have hlow : lowGap r = 8 * (lastByte r + 1) - r.endBit := rfl
  rw [consumeBytes_eq mode base (firstByte r) (mode.updateByte r v)]
  · rw [← Nat.shiftRight_add]
    congr 2
    omega
  · intro i hpos hle old
    rw [WriteMode.updateByte, coverMask_of_inside hv (by omega) (by omega),
      placedBits_of_lowGap_le (by omega), ← Nat.shiftRight_add]
    congr 3
    omega

/-- The whole bytes and then the head byte are the byte updates from byte `fb + k` down. -/
theorem writeHead_consumeBytes (mode : WriteMode) (base : Nat) {v k : Nat}
    (hfits : v < 2 ^ span r) (hmany : firstByte r < lastByte r)
    (hk : firstByte r + k ≤ lastByte r) (hgap : lowGap r ≤ 8 * (lastByte r - (firstByte r + k)))
    (s : State) :
    let p := consumeBytes mode (base + firstByte r) k
      (v >>> (8 * (lastByte r - (firstByte r + k)) - lowGap r)) s
    writeHead mode (base + firstByte r) (r.beginBit % 8) p.1 p.2 =
      updateBytes (mode.updateByte r v) base
        ((List.range (k + 1)).map (firstByte r + k - ·)) s := by
  simp only [consumeBytes_span hv mode base v hk hgap, writeHead_eq hv mode base hfits hmany]
  rw [List.range_succ, List.map_append, updateBytes_append, List.map_singleton,
    Nat.add_sub_cancel]
  rfl

end Range

/-- Shifting the low `t` bits of a value up by `8 - t` fills a byte as shifting the value does. -/
theorem ofNat_lowBits_shiftLeft (v t : Nat) :
    BitVec.ofNat 8 ((v &&& (2 ^ t - 1)) <<< (8 - t)) = BitVec.ofNat 8 (v <<< (8 - t)) := by
  refine BitVec.eq_of_getLsbD_eq fun q hq => ?_
  simp only [BitVec.getLsbD_ofNat, Nat.testBit_shiftLeft, Nat.testBit_and,
    Nat.testBit_two_pow_sub_one]
  by_cases hlow : 8 - t ≤ q
  · rw [decide_eq_true (show q - (8 - t) < t by omega), Bool.and_true]
  · simp only [ge_iff_le, hlow, decide_false, Bool.false_and]

/-- The single-byte write of R132 is the update of the one span byte. -/
theorem rmwByte_oneByte (mode : WriteMode) (base v : Nat) {r : BitRange}
    (hone : firstByte r = lastByte r) (s : State) :
    rmwByte (base + firstByte r) (combine mode (BitVec.ofNat 8 ((2 ^ span r - 1) <<< lowGap r))
        (BitVec.ofNat 8 (v <<< lowGap r))) s =
      updateBytes (mode.updateByte r v) base (bytesDown r) s := by
  rw [← coverMask_lastByte, ← placedBits_lastByte, bytesDown, hone, Nat.add_sub_cancel_left]
  rfl

/-- The tail byte of R133, which a range with `t` tail bits ends in. -/
theorem rmwByte_tail (mode : WriteMode) (a v : Nat) {r : BitRange} (hv : validRange r = true)
    (hmany : firstByte r < lastByte r) {t : Nat} (ht : lowGap r = 8 - t) (s : State) :
    rmwByte a (combine mode (BitVec.ofNat 8 (0xFF <<< (8 - t)))
        (BitVec.ofNat 8 ((v &&& (2 ^ t - 1)) <<< (8 - t)))) s =
      rmwByte a (mode.updateByte r v (lastByte r)) s := by
  rw [ofNat_lowBits_shiftLeft, ← ht, ← coverMask_tail hv hmany, ← placedBits_lastByte]
  rfl

/-- The multi-byte write of R133 without tail bits: the last byte is a whole one. -/
theorem writeHead_consumeBytes_noTail (mode : WriteMode) (base : Nat) {v : Nat} {r : BitRange}
    (hv : validRange r = true) (hfits : v < 2 ^ span r) (hmany : firstByte r < lastByte r)
    (hgap : lowGap r = 0) (s : State) :
    let p := consumeBytes mode (base + firstByte r) (lastByte r - firstByte r) v s
    writeHead mode (base + firstByte r) (r.beginBit % 8) p.1 p.2 =
      updateBytes (mode.updateByte r v) base (bytesDown r) s := by
  have hlast : firstByte r + (lastByte r - firstByte r) = lastByte r := by omega
  have hbytes := writeHead_consumeBytes hv mode base hfits hmany hlast.le (by omega) s
  rw [hlast, Nat.sub_self, Nat.mul_zero, Nat.zero_sub, Nat.shiftRight_zero,
    ← Nat.sub_add_comm hmany.le] at hbytes
  exact hbytes

/-- The multi-byte write of R133 with `t` tail bits: the tail byte comes first. -/
theorem writeHead_consumeBytes_tail (mode : WriteMode) (base : Nat) {v t : Nat} {r : BitRange}
    (hv : validRange r = true) (hfits : v < 2 ^ span r) (hmany : firstByte r < lastByte r)
    (ht : t ≤ 8) (hgap : lowGap r = 8 - t) (s : State) :
    let p := consumeBytes mode (base + firstByte r) (lastByte r - firstByte r - 1) (v >>> t)
      (rmwByte (base + lastByte r) (mode.updateByte r v (lastByte r)) s)
    writeHead mode (base + firstByte r) (r.beginBit % 8) p.1 p.2 =
      updateBytes (mode.updateByte r v) base (bytesDown r) s := by
  have hlast : firstByte r + (lastByte r - firstByte r - 1) = lastByte r - 1 := by omega
  have hshift : 8 * (lastByte r - (lastByte r - 1)) - lowGap r = t := by omega
  have hcount : lastByte r - firstByte r - 1 + 1 = lastByte r - firstByte r := by omega
  have hbytes := writeHead_consumeBytes hv mode base hfits hmany (by omega) (by omega)
    (rmwByte (base + lastByte r) (mode.updateByte r v (lastByte r)) s)
    (k := lastByte r - firstByte r - 1)
  rw [hlast, hshift, hcount] at hbytes
  rw [bytesDown, Nat.sub_add_comm hmany.le, range_map_sub_succ, updateBytes]
  exact hbytes

/-- Both write paths of the source update the bytes of the span, tail to head. -/
theorem sourceWrite_eq_updateBytes (mode : WriteMode) (base : Nat) {b e v : Nat}
    (hv : validRange ⟨b, e⟩ = true) (hfits : v < 2 ^ span ⟨b, e⟩) (s : State) :
    sourceWrite mode base ⟨b, e⟩ v s =
      updateBytes (mode.updateByte ⟨b, e⟩ v) base (bytesDown ⟨b, e⟩) s := by
  have hlt : b < e := (validRange_iff.1 hv).1
  have hle : b / 8 ≤ (e - 1) / 8 := firstByte_le_lastByte hv
  have hgap : lowGap ⟨b, e⟩ = 8 * ((e - 1) / 8 + 1) - e := rfl
  have hwindow : (e - 8 * (b / 8) - 1) / 8 = (e - 1) / 8 - b / 8 :=
    lastByte_normalizeRange base ⟨b, e⟩
  rw [sourceWrite_eq, hwindow]
  split_ifs with hone htail
  · have hlow : 8 - (e - 8 * (b / 8)) = lowGap ⟨b, e⟩ := by omega
    rw [hlow]
    exact rmwByte_oneByte mode base v (r := ⟨b, e⟩) hone s
  · have hmany : firstByte ⟨b, e⟩ < lastByte ⟨b, e⟩ := Nat.lt_of_le_of_ne hle hone
    exact writeHead_consumeBytes_noTail mode base hv hfits hmany (by omega) s
  · have hmany : firstByte ⟨b, e⟩ < lastByte ⟨b, e⟩ := Nat.lt_of_le_of_ne hle hone
    have hlow : lowGap ⟨b, e⟩ = 8 - (e - 8 * (b / 8)) % 8 := by omega
    have haddr : base + b / 8 + ((e - 1) / 8 - b / 8) = base + (e - 1) / 8 := by omega
    simp only [haddr, rmwByte_tail mode _ v hv hmany hlow]
    exact writeHead_consumeBytes_tail mode base hv hfits hmany (by omega) hlow s

/-- Settles O33: the source's byte updates are those of the rules of record, in one order. -/
theorem sourceWriteAlgorithmAgrees : Obligations.SourceWriteAlgorithmAgrees := by
  intro s base len b e v hlt h64 hfits hlen haddr
  have hv : validRange ⟨b, e⟩ = true := validRange_iff.2 ⟨hlt, h64⟩
  have hsource := fun mode => sourceWrite_eq_updateBytes mode base hv hfits s
  refine ⟨⟨_, updateField_of_checks _ hlt h64 hfits hlen haddr, ?_⟩,
    ⟨_, updateField_of_checks _ hlt h64 hfits hlen haddr, ?_⟩⟩
  · rw [hsource .overwrite, updateByte_overwrite]; exact ⟨rfl, rfl⟩
  · rw [hsource .merge, updateByte_merge]; exact ⟨rfl, rfl⟩

end Sys2Proof.Machine
end

section
/-!
PROOFS. The errors of 60_exceptions.md: their codes (R160), which of them a request word raises (R161
to R165), what an error leaves unchanged (R166), and the log that records it (R168).
-/

namespace Sys2Proof.Machine

/-! ### Codes -/

/-- Settles O9: the tables are the definitions' own rows, and each code reads back to its name. -/
theorem statusAndWidthClassCodes : Obligations.StatusAndWidthClassCodes :=
  ⟨rfl, rfl, rfl, rfl, rfl, rfl, rfl, rfl, rfl, rfl, rfl, rfl, rfl, rfl, rfl, rfl,
    statusOfCode_statusCode, wclassOfCode_wclassCode⟩

/-! ### Reserved opcodes -/

/-- The decoder rejects the words with a reserved `op`, and no others (R63). -/
theorem decode_eq_error_iff {c : Config} {w : Nat} :
    (∃ x, decode c w = .error x) ↔ bitField w 0 4 ∈ [0x0, 0x7, 0xB, 0xC, 0xD, 0xE, 0xF] := by
  rcases decode_cases c w with ⟨hop, hd⟩ | ⟨hop, hd⟩ | ⟨hop, hd⟩ | ⟨hop, hd⟩ | ⟨hop, hd⟩ |
      ⟨hop, hd⟩ | ⟨hop, hd⟩ | ⟨hop, hd⟩ | ⟨hop, hd⟩ | ⟨hop, hd⟩ <;>
    simp [hop, hd]

/-- Settles O5: a reserved word is answered by error entry alone, and a decoded request never raises
ERR_OPCODE. -/
theorem reservedOpcodesRaiseErrOpcode : Obligations.ReservedOpcodesRaiseErrOpcode := by
  refine fun s w => ⟨decode_eq_error_iff, fun hop => ?_, fun t r h hr hstatus => ?_⟩
  · obtain ⟨x, hd⟩ := decode_eq_error_iff.2 hop
    exact serveRequest_of_reserved hd
  · cases hd : decode s.cfg w with
    | error x => exact decode_eq_error_iff.1 ⟨x, hd⟩
    | ok i =>
      rw [serveRequest_of_decode hd] at h
      exact absurd hstatus (exec_status_ne_opcode h hr)

/-! ### The effect of an error -/

/-- Settles O43: an answer with an error status is error entry, after the trace is emptied. -/
theorem errorsTouchNothing : Obligations.ErrorsTouchNothing := by
  intro s t w r e h hr hstatus
  rcases serveRequest_cases w s with ⟨e', h'⟩ | ⟨m, tr, c, v, nb, ne, h'⟩
  · cases h'.symm.trans h
    cases hr
    cases hstatus
    rfl
  · cases h'.symm.trans h
    cases hr
    cases hstatus

/-- Settles O45: error entry and completion are both next states. -/
theorem everyInstructionCompletes : Obligations.EveryInstructionCompletes := by
  intro i s
  rcases exec_cases i s with ⟨e, h⟩ | ⟨m, tr, c, v, nb, ne, h⟩
  · exact ⟨_, errorResponse e, h, rfl, rfl, rfl, rfl, rfl⟩
  · exact ⟨_, ⟨.ok, c, v, nb, ne⟩, h, rfl, rfl, rfl, rfl, rfl⟩

/-! ### The status of a request -/

/-- The error a request word raises: ERR_OPCODE when it decodes to no request (R161), else the first
failing check of its request (R165). -/
def wordError (c : Config) (w : Nat) : Option ErrorCode :=
  match decode c w with
  | .ok i => firstError c i
  | .error _ => some .opcode

theorem wordError_of_decode {c : Config} {w : Nat} {i : Instr} (h : decode c w = .ok i) :
    wordError c w = firstError c i := by
  rw [wordError, h]

theorem wordError_of_reserved {c : Config} {w : Nat} {x : DecodeError}
    (h : decode c w = .error x) : wordError c w = some .opcode := by
  rw [wordError, h]

/-- The status that reports an error, or OK. -/
def statusOf (o : Option ErrorCode) : Status := o.elim .ok .err

@[simp] theorem statusOf_none : statusOf none = .ok := rfl
@[simp] theorem statusOf_some (e : ErrorCode) : statusOf (some e) = .err e := rfl

theorem serveRequest_of_wordError {w : Nat} {s : State} {e : ErrorCode}
    (h : wordError s.cfg w = some e) : serveRequest w s = raise e s.clearTrace := by
  cases hd : decode s.cfg w with
  | error x =>
    cases (wordError_of_reserved hd).symm.trans h
    exact serveRequest_of_reserved hd
  | ok i =>
    rw [wordError_of_decode hd] at h
    exact (serveRequest_of_decode hd).trans (exec_of_firstError h)

theorem serveRequest_of_no_wordError {w : Nat} {s : State} (h : wordError s.cfg w = none) :
    ∃ i, serveRequest w s = .next (succeed i s.clearTrace) := by
  cases hd : decode s.cfg w with
  | error x => cases (wordError_of_reserved hd).symm.trans h
  | ok i =>
    rw [wordError_of_decode hd] at h
    exact ⟨i, (serveRequest_of_decode hd).trans (exec_of_no_error h)⟩

/-- The response to a request word reports the error it raises, with zero data fields if there is
one. -/
theorem serveRequest_status (w : Nat) (s : State) :
    ∃ t r, serveRequest w s = .next t ∧ t.resp = some r ∧
      (r.status ≠ .ok → r.result = 0 ∧ r.wclass = .none ∧ r.nbegin = 0 ∧ r.nend = 0) ∧
      r.status = statusOf (wordError s.cfg w) := by
  cases he : wordError s.cfg w with
  | some e =>
    exact ⟨_, errorResponse e, serveRequest_of_wordError he, rfl, fun _ => ⟨rfl, rfl, rfl, rfl⟩, rfl⟩
  | none =>
    obtain ⟨i, h⟩ := serveRequest_of_no_wordError he
    have hok := okResponse_status s.mem i
    exact ⟨_, okResponse s.mem i, h, rfl, fun hne => absurd hok hne, hok⟩

/-! Each check of the model as the negation of the error's cause in R162 to R164. -/

theorem validRange_eq_not_cause (b e : Nat) :
    validRange ⟨b, e⟩ = !decide (b ≥ e ∨ e - b > 64) := by
  simp only [validRange_mk, ← decide_not, decide_eq_decide]
  omega

theorem valueFits_eq_not_cause (b e : Nat) (v : Word) :
    valueFits ⟨b, e⟩ v = !decide (v.toNat ≥ 2 ^ (e - b)) := by
  rw [← decide_not]
  exact decide_eq_decide.2 Nat.not_le.symm

theorem addressExists_eq_not_cause (c : Config) (a : Nat) :
    addressExists c a = !decide (a > 2 ^ c.addrW - 1) := by
  simp only [addressExists, ← decide_not, Nat.not_lt, le_two_pow_sub_one_iff]

theorem inBounds_eq_not_cause (c : Config) (base len b e : Nat) :
    inBounds c base len ⟨b, e⟩ =
      !decide ((e - 1) / 8 ≥ len ∨ base + (e - 1) / 8 > 2 ^ c.addrW - 1) := by
  simp only [inBounds_mk, ← decide_not, not_or, Nat.not_le, Nat.not_lt]

/-- Settles O44: for each `op`, the checks of its request are those rows of R165 that name it. -/
theorem statusIsTheFirstErrorInPriorityOrder :
    Obligations.StatusIsTheFirstErrorInPriorityOrder := by
  intro s w
  obtain ⟨t, r, h, hr, hzero, hstatus⟩ := serveRequest_status w s
  refine ⟨t, r, h, hr, hzero, hstatus.trans ?_⟩
  have hfield : (unpackRequest s.cfg w).op = bitField w 0 4 := rfl
  cases hd : decode s.cfg w with
  | error x =>
    rw [wordError_of_reserved hd]
    exact (if_pos (decode_eq_error_iff.1 ⟨x, hd⟩)).symm
  | ok i =>
    rw [wordError_of_decode hd, hfield]
    rcases decode_cases s.cfg w with ⟨hop, h'⟩ | ⟨hop, h'⟩ | ⟨hop, h'⟩ | ⟨hop, h'⟩ | ⟨hop, h'⟩ |
        ⟨hop, h'⟩ | ⟨hop, h'⟩ | ⟨hop, h'⟩ | ⟨hop, h'⟩ | ⟨_, h'⟩ <;>
      cases h'.symm.trans hd
    all_goals
      simp only [firstError, updateError, validRange_eq_not_cause, valueFits_eq_not_cause,
        addressExists_eq_not_cause, inBounds_eq_not_cause, Bool.not_eq_true',
        decide_eq_false_iff_not, ite_not, apply_ite statusOf]
      simp [hop]

/-! ### The fault log -/

/-- The log of `t` is that of `s` with at most one entry more. -/
def State.LogGrowsTo (s t : State) : Prop := ∃ l, t.faultLog = s.faultLog ++ l ∧ l.length ≤ 1

theorem State.logGrowsTo_of_eq {s t : State} (h : t.faultLog = s.faultLog) : s.LogGrowsTo t :=
  ⟨[], by rw [h, List.append_nil], Nat.zero_le 1⟩

/-- Serving a request logs the status of its response, if that is an error. -/
theorem serveRequest_faultLog (w : Nat) (s : State) :
    ∃ t r, serveRequest w s = .next t ∧ t.resp = some r ∧
      t.faultLog = s.faultLog ++ (match r.status with | .ok => [] | .err e => [e]) := by
  rcases serveRequest_cases w s with ⟨e, h⟩ | ⟨m, tr, c, v, nb, ne, h⟩
  · exact ⟨_, errorResponse e, h, rfl, rfl⟩
  · exact ⟨_, ⟨.ok, c, v, nb, ne⟩, h, rfl, (List.append_nil _).symm⟩

theorem serveRequest_logGrowsTo {w : Nat} {s t : State} (h : serveRequest w s = .next t) :
    s.LogGrowsTo t := by
  rcases serveRequest_cases w s with ⟨e, h'⟩ | ⟨m, tr, c, v, nb, ne, h'⟩
  · cases h'.symm.trans h
    exact ⟨[e], rfl, Nat.le_refl 1⟩
  · cases h'.symm.trans h
    exact State.logGrowsTo_of_eq rfl

/-- Accesses of other agents change memory alone, so the request is served with the same log. -/
theorem serveContended_logGrowsTo {w : Nat} {during : List HostAccess} {s t : State}
    (h : serveContended w during s = .next t) : s.LogGrowsTo t := by
  unfold serveContended at h
  split at h
  · cases h
  · rcases hostAccesses_cases during s with ⟨m, hm, -⟩ | ⟨x, -, -, hm⟩ <;> simp only [hm] at h
    · exact serveRequest_logGrowsTo (s := s.setMem m) h
    · cases h

theorem store_faultLog {a : Nat} {v : Byte} {s t : State}
    (h : hostAccess (.write a v) s = .next t) : t.faultLog = s.faultLog := by
  rcases Nat.lt_or_ge a (2 ^ s.cfg.addrW) with ha | ha
  · cases (hostAccess_write v ha).symm.trans h
    rfl
  · cases (hostAccess_outside (x := .write a v) ha).symm.trans h

theorem takeResponse_faultLog {s t : State} (h : takeResponse s = .next t) :
    t.faultLog = s.faultLog := by
  unfold takeResponse at h
  split at h <;> cases h
  rfl

theorem cutRequest_faultLog (w : Nat) (s : State) : (cutRequest w s).faultLog = s.faultLog := by
  rw [cutRequest, scramble_eq]
  rfl

/-- Every action of the host keeps what is logged, and adds at most one entry. -/
theorem serve_logGrowsTo {e : HostEvent} {s t : State} (h : serve e s = .next t) :
    s.LogGrowsTo t := by
  cases e with
  | request w => exact serveRequest_logGrowsTo h
  | contended w during => exact serveContended_logGrowsTo h
  | store a v => exact State.logGrowsTo_of_eq (store_faultLog h)
  | takeResponse => exact State.logGrowsTo_of_eq (takeResponse_faultLog h)
  | reset => cases h; exact State.logGrowsTo_of_eq rfl
  | resetDuring w => cases h; exact State.logGrowsTo_of_eq (cutRequest_faultLog w s)

/-- Settles O46: a step is one action of the host, or idle. -/
theorem faultLogRecordsEachNonzeroStatus : Obligations.FaultLogRecordsEachNonzeroStatus := by
  refine ⟨fun s w => serveRequest_faultLog w s, fun s t h => ?_⟩
  cases hp : s.pending with
  | nil => cases (step_idle hp).symm.trans h; exact State.logGrowsTo_of_eq rfl
  | cons e es =>
    rw [step_serve hp] at h
    exact serve_logGrowsTo (s := s.setPending es) h

end Sys2Proof.Machine
end

section
/-!
PROOFS. Reset and hazards (70_reset_and_hazards.md): requests on disjoint fields of one buffer in either
order (R49, R185), when two fields share a byte (R185), reset of an idle block (R180, R182) and of one
at work (R181), and the duties of the host that keep the machine running (R188).
-/

namespace Sys2Proof.Machine

/-! ### Disjoint fields -/

section DisjointFields

variable {i i' : Instr} {base len len' : Nat} {r r' : BitRange} {v v' : Word} {s s' t t' u u' : State}

/-- No request changes a bit outside the range it names, whatever the answer (R141). -/
theorem AccessesRange.bitSet_outside (hi : AccessesRange i base len r v) (hm : s.mem.wf)
    (h : exec i s = .next t) {j : Nat} (hj : ¬(r.beginBit ≤ j ∧ j < r.endBit)) :
    bitSet t.mem base j = bitSet s.mem base j := by
  rcases exec_next_cases h with ⟨_, -, hmem⟩ | ⟨hchecks, rfl⟩
  · rw [hmem]
  · exact bit_eq_iff.1 (hi.bit_succeed hm hchecks hj)

/-- What a request makes of a buffer bit depends on that bit alone: in buffers that agree on it before,
they agree on it after. -/
theorem AccessesRange.bitSet_congr (hi : AccessesRange i base len r v) (hc : s.cfg = s'.cfg)
    (hm : s.mem.wf) (hm' : s'.mem.wf) (h : exec i s = .next t) (h' : exec i s' = .next t') {j : Nat}
    (hbit : bitSet s.mem base j = bitSet s'.mem base j) :
    bitSet t.mem base j = bitSet t'.mem base j := by
  rcases exec_next_cases h with ⟨err, herr, hmem⟩ | ⟨hchecks, rfl⟩
  · cases (exec_of_firstError (hc ▸ herr)).symm.trans h'
    rw [hmem]
    exact hbit
  · have hchecks' := hc ▸ hchecks
    cases (exec_of_no_error hchecks').symm.trans h'
    rcases hi with rfl | rfl | rfl
    · simpa [succeed, performAccesses, readBytes_eq] using hbit
    · rw [bitSet_succeed_write hm hchecks, bitSet_succeed_write hm' hchecks', hbit]
    · rw [bitSet_succeed_merge hm hchecks, bitSet_succeed_merge hm' hchecks', hbit]

/-- At a bit outside the range of `i'`, both orders leave what `i` alone leaves there. -/
theorem AccessesRange.bitSet_either_order (hi : AccessesRange i base len r v)
    (hi' : AccessesRange i' base len' r' v') (hm : s.mem.wf)
    (h : exec i s = .next t) (hthen : exec i' t = .next u)
    (h' : exec i' s = .next t') (hthen' : exec i t' = .next u') {j : Nat}
    (hj : ¬(r'.beginBit ≤ j ∧ j < r'.endBit)) : bitSet u.mem base j = bitSet u'.mem base j := by
  obtain ⟨-, hwf, -⟩ := exec_footprint h
  obtain ⟨hcfg', hwf', -⟩ := exec_footprint h'
  calc bitSet u.mem base j = bitSet t.mem base j := hi'.bitSet_outside (hwf hm) hthen hj
    _ = bitSet u'.mem base j :=
      hi.bitSet_congr hcfg'.symm hm (hwf' hm) h hthen' (hi'.bitSet_outside hm h' hj).symm

end DisjointFields

/-- Settles O41: every bit is outside one of the two ranges, and there both orders leave what the other
request alone does. -/
theorem writesOfDisjointFieldsCommute : Obligations.WritesOfDisjointFieldsCommute := by
  intro s t₁ t₂ u₁ u₂ base len₁ len₂ b₁ e₁ b₂ e₂ v₁ v₂ i₁ i₂ hm hdisjoint hmem₁ hmem₂ h₁ h₁₂ h₂ h₂₁
  have hi₁ : AccessesRange i₁ base len₁ ⟨b₁, e₁⟩ v₁ := .inr (by simpa using hmem₁)
  have hi₂ : AccessesRange i₂ base len₂ ⟨b₂, e₂⟩ v₂ := .inr (by simpa using hmem₂)
  obtain ⟨-, hwf₁, -⟩ := exec_footprint h₁
  obtain ⟨-, hwf₂, -⟩ := exec_footprint h₂
  obtain ⟨-, hwf₁₂, -⟩ := exec_footprint h₁₂
  obtain ⟨-, hwf₂₁, -⟩ := exec_footprint h₂₁
  refine Memory.ext_of_bitSet (base := base) (hwf₁₂ (hwf₁ hm)) (hwf₂₁ (hwf₂ hm))
    (fun a ha => ?_) fun j => ?_
  · rw [hi₂.read_below_base h₁₂ ha, hi₁.read_below_base h₁ ha, hi₁.read_below_base h₂₁ ha,
      hi₂.read_below_base h₂ ha]
  · have hout : ¬(b₂ ≤ j ∧ j < e₂) ∨ ¬(b₁ ≤ j ∧ j < e₁) := by omega
    rcases hout with hj | hj
    · exact hi₁.bitSet_either_order hi₂ hm h₁ h₁₂ h₂ h₂₁ hj
    · exact (hi₂.bitSet_either_order hi₁ hm h₂ h₂₁ h₁ h₁₂ hj).symm

/-! ### The shared-byte hazard -/

theorem conflicts_iff {r₁ r₂ : BitRange} : conflicts r₁ r₂ = true ↔
    firstByte r₁ ≤ lastByte r₂ ∧ firstByte r₂ ≤ lastByte r₁ := by
  simp only [conflicts, Bool.and_eq_true, decide_eq_true_eq]

/-- Settles O42: two byte spans that intersect share the later of their first bytes. -/
theorem conflictIsSharingAByte : Obligations.ConflictIsSharingAByte := by
  intro r₁ r₂ hv₁ hv₂
  have hle₁ := firstByte_le_lastByte hv₁
  have hle₂ := firstByte_le_lastByte hv₂
  refine conflicts_iff.trans ⟨fun ⟨h₁₂, h₂₁⟩ => ?_, fun ⟨k, hfirst₁, hlast₁, hfirst₂, hlast₂⟩ => ?_⟩
  · exact ⟨max (firstByte r₁) (firstByte r₂), le_max_left _ _, max_le hle₁ h₂₁, le_max_right _ _,
      max_le h₁₂ hle₂⟩
  · exact ⟨hfirst₁.trans hlast₂, hfirst₂.trans hlast₁⟩

/-! ### Reset -/

/-- Settles O50: the step is the reset of the block alone. -/
theorem resetLeavesTheBufferAlone : Obligations.ResetLeavesTheBufferAlone :=
  fun _ _ hp => step_serve hp

/-- A request cut by reset changes memory and the count of free values, and clears the response and the
trace. -/
theorem cutRequest_eq (w : Nat) (s : State) :
    cutRequest w s = { s with
      mem := (scramble (writtenByWord s.cfg w) s).mem
      draws := s.draws + (writtenByWord s.cfg w).length
      resp := none
      trace := [] } := by
  rw [cutRequest, scramble_eq]
  rfl

/-- Settles O51: the step cuts the request, and only bytes that it writes are drawn anew. -/
theorem resetCutsARequest : Obligations.ResetCutsARequest := by
  intro s w es hm hp
  have hstep : step s = .next (cutRequest w (s.setPending es)) := step_serve hp
  rw [cutRequest_eq] at hstep
  refine ⟨_, hstep, rfl, rfl, rfl, rfl, scramble_wf hm, fun a ha => ?_, fun hnone => ?_⟩
  · exact scramble_read (fun hwritten => ha (writtenByWord_subset hwritten)) (s.setPending es)
  · show (scramble (writtenByWord s.cfg w) (s.setPending es)).mem = s.mem
    rw [hnone]
    rfl

/-! ### The host -/

theorem takeResponse_of_resp {s : State} {r : Response} (h : s.resp = some r) :
    takeResponse s = .next (s.addReceived (encodeResponse s.cfg r)) := by
  simp only [takeResponse, h]

theorem takeResponse_of_no_resp {s : State} (h : s.resp = none) :
    takeResponse s = .refused .noResponse := by
  simp only [takeResponse, h]

/-- Settles O57: the step takes the response, if there is one. -/
theorem hostTakesTheResponseWord : Obligations.HostTakesTheResponseWord :=
  fun s es hp => ⟨fun _ hr => (step_serve hp).trans (takeResponse_of_resp (s := s.setPending es) hr),
    fun hnone => (step_serve hp).trans (takeResponse_of_no_resp (s := s.setPending es) hnone)⟩

/-- An action within the host's duties ends in a next state: a request always does, reset always does,
and the host's accesses and its taking of a response do on their duties. -/
theorem serve_next_of_dutyKept {e : HostEvent} {s : State} (hduty : hostDutyKept s.cfg e)
    (htake : e = .takeResponse → s.resp ≠ none) : ∃ t, serve e s = .next t := by
  cases e with
  | request w => exact serveRequest_next w s
  | contended w during =>
    obtain ⟨m, hserve, -⟩ := serveContended_outside_span hduty
    obtain ⟨t, ht⟩ := serveRequest_next w (s.setMem m)
    exact ⟨t, hserve.trans ht⟩
  | store a v => exact ⟨_, hostAccess_write v hduty⟩
  | takeResponse =>
    obtain ⟨r, hr⟩ := Option.ne_none_iff_exists'.1 (htake rfl)
    exact ⟨_, takeResponse_of_resp hr⟩
  | reset => exact ⟨_, rfl⟩
  | resetDuring w => exact ⟨_, rfl⟩

/-- Settles O58: a step is idle, or an action within the host's duties. -/
theorem machineRunsWhileTheHostKeepsItsDuties :
    Obligations.MachineRunsWhileTheHostKeepsItsDuties := by
  intro s hduties
  cases hp : s.pending with
  | nil => exact ⟨s, step_idle hp⟩
  | cons e es =>
    obtain ⟨hduty, htake⟩ := hduties e es hp
    rw [step_serve hp]
    exact serve_next_of_dutyKept (s := s.setPending es) hduty htake

end Sys2Proof.Machine
end

section
/-!
PROOFS. The request words that 95_test_vectors.md writes out: each is the word of its request (R60), so
the decoder reads that request back from it (R66).
-/

namespace Sys2Proof

/-- A word that is the encoding of a well-formed request decodes to it. -/
theorem decode_of_encode_eq {c : Config} {i : Instr} {w : Nat} (hwf : i.wf c = true)
    (hw : encode c i = w) : decode c w = .ok i :=
  hw ▸ encodeThenDecodeGivesTheRequestBack c i hwf

/-- Settles O7: each request fits the default widths, and the encoder gives the word printed for it. -/
theorem specWordsDecode : Obligations.SpecWordsDecode :=
  ⟨decode_of_encode_eq (by decide) (by decide), decode_of_encode_eq (by decide) (by decide),
    decode_of_encode_eq (by decide) (by decide), decode_of_encode_eq (by decide) (by decide),
    decode_of_encode_eq (by decide) (by decide), decode_of_encode_eq (by decide) (by decide)⟩

end Sys2Proof
end
